-- ==== Sys2Proof/Word.lean ====
section
/-! DEFINITION. The two word widths of the block (spec 10_state R20, 20_memory R42, R45): a byte, and the
32-bit pattern of a multi-byte payload field. -/

namespace Sys2Proof

/-- A byte: the unit of the link, of the buffer and of every decoder register (R10, R45). -/
abbrev Byte := BitVec 8

/-- A 32-bit field: `sample_id`, a binary32 pattern, or SetPower's signed value (R42). -/
abbrev Word := BitVec 32

end Sys2Proof
end

