-- ==== Sys2Proof/Config.lean ====
section
/-! DEFINITION. The protocol constants (spec 00_scope R9, fixed), the values the operations pass to each other
(frames, commands, records, events), and the configuration of OPEN parameters (R9, R32). -/

namespace Sys2Proof

/-! ## Fixed constants (R9) -/

/-- START_MARKER, 0xAA (R9, R61). -/
def startMarker : Byte := 0xAA
/-- MAX_PAYLOAD, 64 (R9): also the number of buffer cells (R26). -/
def maxPayload : Nat := 64
/-- TYPE_TELEMETRY, 0x01 (R9, R63). -/
def typeTelemetry : Byte := 0x01
/-- TYPE_COMMAND, 0x10 (R9, R63). -/
def typeCommand : Byte := 0x10
/-- CMD_ID_SCRAM, 1 (R9, R71). -/
def cmdIdScram : Byte := 1
/-- CMD_ID_RESET_NORMAL, 2 (R9, R71). -/
def cmdIdResetNormal : Byte := 2
/-- CMD_ID_SET_POWER, 3 (R9, R71). -/
def cmdIdSetPower : Byte := 3
/-- TLM_PAYLOAD_LEN, 14 (R9, R66). -/
def tlmPayloadLen : Nat := 14
/-- CMD_LEN_SET_POWER, 5 (R9, R70). -/
def cmdLenSetPower : Nat := 5
/-- POWER_MAX, 100 (R9); POWER_MIN is 0. -/
def powerMax : Byte := 100
/-- POWER_AFTER_RESET_NORMAL, 50 (R9, R133). -/
def powerAfterResetNormal : Byte := 50
/-- MINOR_QUAKE, the binary32 value nearest 0.8 (R9, R144, D11). -/
def minorQuake : Word := 0x3F4CCCCD
/-- MAJOR_QUAKE, binary32 2.0 (R9). -/
def majorQuake : Word := 0x40000000
/-- HYST_MARGIN, binary32 2.0 (R9). -/
def hystMargin : Word := 0x40000000
/-- SAMPLE_ID_RESET, 0 (R9, D9). -/
def sampleIdReset : Word := 0

/-! ## Values -/

/-- The payload buffer: (address, byte) pairs in one canonical form (`Memory.wf`, Machine/Ops.lean). -/
abbrev Memory := List Host.Cell

/-- `dec_state`: the field of a frame that the next byte is taken as (R21). -/
inductive DecState where
  | waitStart | readType | readLen | readPayload | readChecksum
deriving DecidableEq, Repr

/-- `current_state` (R29). -/
inductive ReactorState where
  | normal | warning | scram
deriving DecidableEq, Repr

/-- The side of the link an instance stands on (R63, R166, R169). -/
inductive Side where
  | reactor | bridge
deriving DecidableEq, Repr

/-- A command (R120): `setPower` carries the 32-bit pattern of its signed value, unclamped. -/
inductive Command where
  | scram
  | resetNormal
  | setPower (v : Word)
deriving DecidableEq, Repr

/-- A telemetry record (R117); the two floats are binary32 patterns, carried bit for bit (R67). -/
structure TelemetryRecord where
  sampleId : Word
  temperature : Word
  accelMag : Word
  state : ReactorState
  power : Byte
deriving DecidableEq, Repr

/-- An emitted frame `Frame(t, n, p)`, by value (R94); `n` is the payload's length, since `p` has exactly `n` bytes. -/
structure Frame where
  typ : Byte
  payload : List Byte
deriving DecidableEq, Repr

/-- The diagnostic events with the information each records (60_exceptions R181). -/
inductive Event where
  /-- EV_OVERSIZE: the length byte. -/
  | oversize (b : Byte)
  /-- EV_CHECKSUM: the received byte and the expected one. -/
  | checksum (received expected : Byte)
  /-- EV_UNKNOWN_TYPE: the type byte. -/
  | unknownType (t : Byte)
  /-- EV_CMD_UNDERSIZE: the payload length. -/
  | cmdUndersize (n : Nat)
  /-- EV_CMD_UNKNOWN: the command id. -/
  | cmdUnknown (id : Byte)
  /-- EV_SENSOR_FAIL. -/
  | sensorFail
  /-- EV_TLM_CH_FULL: the dropped record's `sample_id`. -/
  | tlmChFull (sampleId : Word)
  /-- EV_CMD_CH_FULL: the dropped command. -/
  | cmdChFull (c : Command)
  /-- EV_TLM_MALFORMED: the payload length. -/
  | tlmMalformed (n : Nat)
deriving DecidableEq, Repr

/-! ## OPEN parameters (R9, R32; 92_eei_decisions) -/

/-- The parameters the spec leaves OPEN, fixed for a whole run and written by no operation (R32). -/
structure Config where
  /-- TEMP_WARNING, a binary32 pattern (D10). -/
  tempWarning : Word
  /-- TEMP_CRITICAL, a binary32 pattern (D10). -/
  tempCritical : Word
  /-- TLM_CH_CAP (D22). -/
  tlmChCap : Nat
  /-- CMD_CH_CAP (D22). -/
  cmdChCap : Nat
  /-- RESET_STATE (D8). -/
  resetState : ReactorState
  /-- RESET_POWER (D8). -/
  resetPower : Byte
  /-- PAYLOAD_INIT (D5). -/
  payloadInit : Memory
deriving DecidableEq, Repr

/-- The configuration of `State.reset`. DESIGN CHOICE (log 5, 6, 7), unsafe: the source's example thresholds 45.0 and
50.0 and example capacities 32 and 8, the reset pair (Normal, 0), and a buffer that reads zero. -/
def Config.chosen : Config where
  tempWarning := 0x42340000
  tempCritical := 0x42480000
  tlmChCap := 32
  cmdChCap := 8
  resetState := .normal
  resetPower := 0
  payloadInit := []

end Sys2Proof
end

