-- ==== Sys2Proof/Syntax.lean ====
section
/-! DEFINITION. The operations of the block (spec 30_encoding R62, R83): one constructor per row of
spec/opcode_table.json, in the table's order. -/

namespace Sys2Proof

/-- The operations. The five frame rows stand for a whole frame arriving on the link; the three command rows for a
command applied to the reactor; the nine byte-class rows for one input byte of the decoder; the others are calls. -/
inductive Instr where
  /-- FRAME (R61): any frame that no more specific row names; type and payload. -/
  | frame (t : Byte) (p : List Byte)
  /-- TELEMETRY (R66). -/
  | telemetry (r : TelemetryRecord)
  /-- SCRAM (R71): `AA 10 01 01 10`. -/
  | scram
  /-- RESET_NORMAL (R71): `AA 10 01 02 13`. -/
  | resetNormal
  /-- SET_POWER (R71, R72). -/
  | setPower (v : Word)
  /-- RSM.CMD_SCRAM (R132). -/
  | rsmCmdScram
  /-- RSM.CMD_RESET_NORMAL (R133). -/
  | rsmCmdResetNormal
  /-- RSM.CMD_SET_POWER (R134). -/
  | rsmCmdSetPower (v : Word)
  /-- DEC.WS_START (R87). -/
  | decWsStart (b : Byte)
  /-- DEC.WS_NOISE (R88). -/
  | decWsNoise (b : Byte)
  /-- DEC.TYPE (R89). -/
  | decType (b : Byte)
  /-- DEC.LEN_OVER (R90). -/
  | decLenOver (b : Byte)
  /-- DEC.LEN_ZERO (R91). -/
  | decLenZero (b : Byte)
  /-- DEC.LEN_OK (R92). -/
  | decLenOk (b : Byte)
  /-- DEC.PAYLOAD (R93). -/
  | decPayload (b : Byte)
  /-- DEC.CK_OK (R95). -/
  | decCkOk (b : Byte)
  /-- DEC.CK_BAD (R96). -/
  | decCkBad (b : Byte)
  /-- DEC.RESET (R86). -/
  | decReset
  /-- CKSUM (R111). -/
  | cksum (t : Byte) (p : List Byte)
  /-- ENC.FRAME (R112). -/
  | encFrame (t : Byte) (p : List Byte)
  /-- TLM.PACK (R115). -/
  | tlmPack (r : TelemetryRecord)
  /-- TLM.UNPACK (R116); `n` is the length of `p`. -/
  | tlmUnpack (p : List Byte)
  /-- CMD.PACK (R118). -/
  | cmdPack (c : Command)
  /-- CMD.UNPACK (R119); `n` is the length of `p`. -/
  | cmdUnpack (p : List Byte)
  /-- RSM.EVAL (R135). -/
  | rsmEval (temp accel : Word)
  /-- RSM.FAILSAFE (R145). -/
  | rsmFailsafe
  /-- RSM.STEP (R146). -/
  | rsmStep (cmds : List Command) (temp accel : Word) (ok : Bool)
  /-- CTRL.STEP (R160): the operands are the sensor's answer; the commands are drained from the command channel. -/
  | ctrlStep (temp accel : Word) (ok : Bool)
  /-- COMMS.ITER (R166, R169): the operand is what the transport's read returned; the records are drained from the
  telemetry channel. -/
  | commsIter (bytes : List Byte)
deriving DecidableEq, Repr

end Sys2Proof
end

