-- ==== Sys2Proof/WellFormed.lean ====
section
/-! DEFINITION. Which operations are well formed: the operand bounds of the table's `constraints`, `range`, `match`
and `min_length` (spec 30_encoding R73, R83) and of the operand lines of 41_encoder_payload. -/

namespace Sys2Proof

/-- A frame that a row more specific than FRAME names: SCRAM, RESET_NORMAL, SET_POWER (R71) or TELEMETRY with an
assigned state code and a power of at most 100 (R66, R68). -/
def namedFrame (t : Byte) (p : List Byte) : Bool :=
  (t == typeCommand && (p == [cmdIdScram] || p == [cmdIdResetNormal] ||
    (p.length == cmdLenSetPower && p.getD 0 0 == cmdIdSetPower))) ||
  (t == typeTelemetry && p.length == tlmPayloadLen && decide (p.getD 12 0 ≤ 2) && decide (p.getD 13 0 ≤ powerMax))

/-- Well-formedness of an operation. -/
def Instr.wellFormed : Instr → Bool
  | .frame t p => decide (p.length ≤ maxPayload) && !namedFrame t p
  | .telemetry r => decide (r.power ≤ powerMax)
  | .scram => true
  | .resetNormal => true
  | .setPower _ => true
  | .rsmCmdScram => true
  | .rsmCmdResetNormal => true
  | .rsmCmdSetPower _ => true
  | .decWsStart b => b == startMarker
  | .decWsNoise b => b != startMarker
  | .decType _ => true
  | .decLenOver b => decide (maxPayload < b.toNat)
  | .decLenZero b => b == 0
  | .decLenOk b => decide (0 < b.toNat) && decide (b.toNat ≤ maxPayload)
  | .decPayload _ => true
  | .decCkOk _ => true
  | .decCkBad _ => true
  | .decReset => true
  | .cksum _ p => decide (p.length ≤ maxPayload)
  | .encFrame _ p => decide (p.length ≤ maxPayload)
  | .tlmPack r => decide (r.power ≤ powerMax)
  | .tlmUnpack p => decide (p.length ≤ maxPayload)
  | .cmdPack _ => true
  | .cmdUnpack p => decide (p.length ≤ maxPayload)
  | .rsmEval _ _ => true
  | .rsmFailsafe => true
  | .rsmStep _ _ _ _ => true
  | .ctrlStep _ _ _ => true
  | .commsIter _ => true

end Sys2Proof
end

