-- ==== Sys2Proof/Decode.lean ====
section
/-! DEFINITION. The encodings (spec 30_encoding; the layouts of 41_encoder_payload): byte order, checksum, frame and
payload layouts; what the host presents to the block (`Invocation`, the four formats of R83); the decoder from an
invocation to an operation and, after it, the encoder. -/

namespace Sys2Proof

/-! ## Byte order (R11, R40) -/

/-- `le32(b0,b1,b2,b3)`: b0 is the byte at the lowest payload offset and the least significant (R11, R40). -/
def le32 (b0 b1 b2 b3 : Byte) : Word :=
  BitVec.ofNat 32 (b0.toNat + 256 * b1.toNat + 65536 * b2.toNat + 16777216 * b3.toNat)

/-- `bytes_le32(u)`: `u[7:0], u[15:8], u[23:16], u[31:24]` in stream order (R11). -/
def bytesLe32 (u : Word) : List Byte :=
  [u.extractLsb' 0 8, u.extractLsb' 8 8, u.extractLsb' 16 8, u.extractLsb' 24 8]

/-- The 32-bit field at payload offsets `k .. k+3` (R40), assembled byte by byte (R43). -/
def le32At (p : List Byte) (k : Nat) : Word :=
  le32 (p.getD k 0) (p.getD (k + 1) 0) (p.getD (k + 2) 0) (p.getD (k + 3) 0)

/-! ## Checksum and frame (R61, R111, R112) -/

/-- `CKSUM(t, p)`: seeded with type ^ length, then every payload byte folded in stream order (R111). -/
def checksum (t : Byte) (p : List Byte) : Byte :=
  p.foldl (· ^^^ ·) (t ^^^ BitVec.ofNat 8 p.length)

/-- The bytes of a frame in stream order (R61, R112): start marker, type, length, payload, checksum. -/
def frameBytes (t : Byte) (p : List Byte) : List Byte :=
  [startMarker, t, BitVec.ofNat 8 p.length] ++ p ++ [checksum t p]

/-! ## Payload layouts (R66 to R72) -/

/-- The wire code of a reactor state (R68). -/
def ReactorState.code : ReactorState → Byte
  | .normal => 0
  | .warning => 1
  | .scram => 2

/-- The reactor state of a wire code; 3..255 are not assigned (R68). -/
def ReactorState.ofCode (b : Byte) : Option ReactorState :=
  if b = 0 then some .normal else if b = 1 then some .warning else if b = 2 then some .scram else none

/-- The 14 bytes of a telemetry record (R66, R115). -/
def telemetryBytes (r : TelemetryRecord) : List Byte :=
  bytesLe32 r.sampleId ++ bytesLe32 r.temperature ++ bytesLe32 r.accelMag ++ [r.state.code, r.power]

/-- The record in the first 14 bytes of a payload (R67), `none` for a reserved state code or a power above 100 (R79).
Meant for payloads of at least 14 bytes. -/
def telemetryFields (p : List Byte) : Option TelemetryRecord :=
  match ReactorState.ofCode (p.getD 12 0) with
  | none => none
  | some st =>
    if p.getD 13 0 ≤ powerMax then
      some { sampleId := le32At p 0, temperature := le32At p 4, accelMag := le32At p 8, state := st, power := p.getD 13 0 }
    else none

/-- The 1 or 5 bytes of a command (R70, R71, R118). -/
def commandBytes : Command → List Byte
  | .scram => [cmdIdScram]
  | .resetNormal => [cmdIdResetNormal]
  | .setPower v => cmdIdSetPower :: bytesLe32 v

/-! ## Invocations (R83) -/

/-- The operations of format "call": no wire encoding; the host invokes them with typed arguments (R83). -/
inductive Call where
  | decReset
  | cksum (t : Byte) (p : List Byte)
  | encFrame (t : Byte) (p : List Byte)
  | tlmPack (r : TelemetryRecord)
  | tlmUnpack (p : List Byte)
  | cmdPack (c : Command)
  | cmdUnpack (p : List Byte)
  | rsmEval (temp accel : Word)
  | rsmFailsafe
  | rsmStep (cmds : List Command) (temp accel : Word) (ok : Bool)
  | ctrlStep (temp accel : Word) (ok : Bool)
  | commsIter (bytes : List Byte)
deriving DecidableEq, Repr

/-- What is presented to the block, in one of the four formats of R83. -/
inductive Invocation where
  /-- format "frame": the bytes of a frame, in stream order; bytes after the frame are not part of it. -/
  | frame (bytes : List Byte)
  /-- format "command": a Command payload, offset 0 first. -/
  | command (payload : List Byte)
  /-- format "byte-class": one input byte of the decoder. -/
  | byte (b : Byte)
  /-- format "call". -/
  | call (c : Call)
deriving DecidableEq, Repr

/-- Why bytes are not an instruction of their format. -/
inductive Reject where
  /-- a frame image that does not begin with the start marker (R61). -/
  | noStartMarker
  /-- a frame image that ends before its checksum (R64). -/
  | truncated
  /-- a length byte of 65..255 (R75). -/
  | oversizeLength
  /-- a checksum byte that is not the checksum (R61). -/
  | checksumMismatch
  /-- a Command payload too short for its id, or empty (R77). -/
  | undersizeCommand
  /-- a command id that is not 1, 2 or 3 (R76). -/
  | unknownCommandId
deriving DecidableEq, Repr

/-! ## Decoder -/

/-- The row of a whole frame of type `t` and payload `p`: the most specific one (R61, R63, R66, R71). -/
def frameRow (t : Byte) (p : List Byte) : Instr :=
  if t = typeCommand then
    if p = [cmdIdScram] then .scram
    else if p = [cmdIdResetNormal] then .resetNormal
    else if p.length = cmdLenSetPower ∧ p.getD 0 0 = cmdIdSetPower then .setPower (le32At p 1)
    else .frame t p
  else if t = typeTelemetry ∧ p.length = tlmPayloadLen then
    match telemetryFields p with
    | some r => .telemetry r
    | none => .frame t p
  else .frame t p

/-- A frame image (R61, R64): the length byte says where it ends; later bytes are not looked at. -/
def decodeFrame : List Byte → Except Reject Instr
  | m :: t :: n :: rest =>
    if m ≠ startMarker then .error .noStartMarker
    else if maxPayload < n.toNat then .error .oversizeLength
    else if rest.length ≤ n.toNat then .error .truncated
    else if rest.getD n.toNat 0 = checksum t (rest.take n.toNat) then .ok (frameRow t (rest.take n.toNat))
    else .error .checksumMismatch
  | _ => .error .truncated

/-- A Command payload (R70 to R72, R76 to R78): bytes beyond those the command needs are ignored. -/
def decodeCommand : List Byte → Except Reject Instr
  | [] => .error .undersizeCommand
  | id :: rest =>
    if id = cmdIdScram then .ok .rsmCmdScram
    else if id = cmdIdResetNormal then .ok .rsmCmdResetNormal
    else if id = cmdIdSetPower then
      if (id :: rest).length < cmdLenSetPower then .error .undersizeCommand
      else .ok (.rsmCmdSetPower (le32At (id :: rest) 1))
    else .error .unknownCommandId

/-- The class of an input byte (R73): exactly one for each `dec_state`, byte and, in ReadChecksum, `checksum_acc`.
The rows of a state are tried in the order of the table (R14). -/
def classify (st : DecState) (acc b : Byte) : Instr :=
  match st with
  | .waitStart => if b = startMarker then .decWsStart b else .decWsNoise b
  | .readType => .decType b
  | .readLen => if maxPayload < b.toNat then .decLenOver b else if b = 0 then .decLenZero b else .decLenOk b
  | .readPayload => .decPayload b
  | .readChecksum => if b = acc then .decCkOk b else .decCkBad b

/-- The operation a call invokes (R62). -/
def Call.instr : Call → Instr
  | .decReset => .decReset
  | .cksum t p => .cksum t p
  | .encFrame t p => .encFrame t p
  | .tlmPack r => .tlmPack r
  | .tlmUnpack p => .tlmUnpack p
  | .cmdPack c => .cmdPack c
  | .cmdUnpack p => .cmdUnpack p
  | .rsmEval temp accel => .rsmEval temp accel
  | .rsmFailsafe => .rsmFailsafe
  | .rsmStep cmds temp accel ok => .rsmStep cmds temp accel ok
  | .ctrlStep temp accel ok => .ctrlStep temp accel ok
  | .commsIter bytes => .commsIter bytes

/-- The operation an invocation stands for, where the decoder's state register is `st` and its accumulator `acc`
(they matter to input bytes alone). Total; bytes that are no instruction of their format are rejected by name. -/
def decode (st : DecState) (acc : Byte) : Invocation → Except Reject Instr
  | .frame bytes => decodeFrame bytes
  | .command payload => decodeCommand payload
  | .byte b => .ok (classify st acc b)
  | .call c => .ok c.instr

/-! ## Encoder -/

/-- The invocation that stands for an operation, written from the layouts of R61, R66, R70, R71 and R73. -/
def encode : Instr → Invocation
  | .frame t p => .frame (frameBytes t p)
  | .telemetry r => .frame (frameBytes typeTelemetry (telemetryBytes r))
  | .scram => .frame (frameBytes typeCommand (commandBytes .scram))
  | .resetNormal => .frame (frameBytes typeCommand (commandBytes .resetNormal))
  | .setPower v => .frame (frameBytes typeCommand (commandBytes (.setPower v)))
  | .rsmCmdScram => .command (commandBytes .scram)
  | .rsmCmdResetNormal => .command (commandBytes .resetNormal)
  | .rsmCmdSetPower v => .command (commandBytes (.setPower v))
  | .decWsStart b => .byte b
  | .decWsNoise b => .byte b
  | .decType b => .byte b
  | .decLenOver b => .byte b
  | .decLenZero b => .byte b
  | .decLenOk b => .byte b
  | .decPayload b => .byte b
  | .decCkOk b => .byte b
  | .decCkBad b => .byte b
  | .decReset => .call .decReset
  | .cksum t p => .call (.cksum t p)
  | .encFrame t p => .call (.encFrame t p)
  | .tlmPack r => .call (.tlmPack r)
  | .tlmUnpack p => .call (.tlmUnpack p)
  | .cmdPack c => .call (.cmdPack c)
  | .cmdUnpack p => .call (.cmdUnpack p)
  | .rsmEval temp accel => .call (.rsmEval temp accel)
  | .rsmFailsafe => .call .rsmFailsafe
  | .rsmStep cmds temp accel ok => .call (.rsmStep cmds temp accel ok)
  | .ctrlStep temp accel ok => .call (.ctrlStep temp accel ok)
  | .commsIter bytes => .call (.commsIter bytes)

/-- Whether the decoder's state register, accumulator and the operation's own byte select it (R62, R73); operations
that are not byte classes are selected in every state. -/
def selects (st : DecState) (acc : Byte) : Instr → Bool
  | .decWsStart b => st == .waitStart && b == startMarker
  | .decWsNoise b => st == .waitStart && b != startMarker
  | .decType _ => st == .readType
  | .decLenOver b => st == .readLen && decide (maxPayload < b.toNat)
  | .decLenZero b => st == .readLen && b == 0
  | .decLenOk b => st == .readLen && decide (0 < b.toNat) && decide (b.toNat ≤ maxPayload)
  | .decPayload _ => st == .readPayload
  | .decCkOk b => st == .readChecksum && b == acc
  | .decCkBad b => st == .readChecksum && b != acc
  | _ => true

/-! ## Table words -/

/-- The `n` bytes of a number, the least significant first: the first byte is at the lowest offset (R10, R48). -/
def numberBytes : Nat → Nat → List Byte
  | 0, _ => []
  | n + 1, w => BitVec.ofNat 8 w :: numberBytes n (w / 256)

/-- The longest instruction of the table, in bytes: the longest frame (R48, R64). -/
def longestInstr : Nat := 68

/-- The invocation for an instruction given as `nbits` bits of a number, the bits above zero, in stream order. DESIGN
CHOICE (log 3), safe: a word whose first byte is the start marker is of format "frame", every other of format
"command"; the byte-class rows have no word of their own (the same byte is a different row in each `dec_state`, R73)
and the call rows no encoding (R83). -/
def invocationOfWord (nbits w : Nat) : Invocation :=
  let bytes := numberBytes longestInstr (w % 2 ^ nbits)
  if bytes.getD 0 0 = startMarker then .frame bytes else .command bytes

/-- The operation the decoder reads from an instruction given as a number; `none` where it refuses. -/
def decodeTableWord (nbits w : Nat) : Option Instr :=
  (decode .waitStart 0 (invocationOfWord nbits w)).toOption

end Sys2Proof
end

