-- ==== Sys2Proof/Machine/State.lean ====
section
/-! DEFINITION. The state of the block and its host (spec 10_state R20 to R38, 20_memory R52 to R54), the reasons a
step can stop, and power-on reset (70_reset_and_hazards R210). -/

namespace Sys2Proof.Machine

/-- The decoder's registers and buffer (R20 to R26). -/
structure Decoder where
  /-- `dec_state` (R21). -/
  decState : DecState
  /-- `msg_type` (R22). -/
  msgType : Byte
  /-- `len` (R23). -/
  len : Byte
  /-- `idx` (R24). -/
  idx : Byte
  /-- `checksum_acc` (R25). -/
  checksumAcc : Byte
  /-- `payload[0..63]` (R26). -/
  payload : Memory
deriving DecidableEq, Repr

/-- The reactor's two registers, `(state, power)` (R29, R30). -/
structure Reactor where
  /-- `current_state` (R29). -/
  state : ReactorState
  /-- `current_power` (R30). -/
  power : Byte
deriving DecidableEq, Repr

/-- The value a function-call operation returns (R33, R110). -/
inductive CallResult where
  /-- CKSUM's byte. -/
  | byte (b : Byte)
  /-- the byte string of ENC.FRAME, TLM.PACK, CMD.PACK. -/
  | bytes (p : List Byte)
  /-- the command of CMD.UNPACK. -/
  | command (c : Command)
  /-- the record of TLM.UNPACK, or the one taken from the bridge's cell. -/
  | record (r : TelemetryRecord)
  /-- the operation dropped its operand (R116, R119), or the bridge's cell was empty. -/
  | dropped
deriving DecidableEq, Repr

/-- The outputs of one operation; they last for that operation alone (R33, R37). The model's own field (log 4). -/
structure Outputs where
  /-- emitted frames, in emit order (R94). -/
  frames : List Frame := []
  /-- diagnostic events, in the order raised (R181). -/
  events : List Event := []
  /-- the value of a function call. -/
  result : Option CallResult := none
  /-- the bytes passed to the transport's `write`, in order (R113, R167). -/
  tx : List Byte := []
  /-- the calls `indicator.set(state)` (R164). -/
  indicator : List ReactorState := []
  /-- the telemetry record built by a control step, sent or dropped (R160). -/
  record : Option TelemetryRecord := none
deriving DecidableEq, Repr

/-- What the host asks of the block (R191, R210, R169, R54). -/
inductive HostEvent where
  /-- an operation is invoked, or a frame, command or byte arrives (R62, R83). -/
  | invoke (v : Invocation)
  /-- power-on reset (R210). -/
  | powerOn
  /-- the upstream side hands a bridge a command to send (R169). -/
  | upstream (c : Command)
  /-- the bridge's consumer takes the latest record (R54). -/
  | takeLatest
deriving DecidableEq, Repr

/-- The whole state. -/
structure State where
  /-- the OPEN parameters (R9, R32); written by no operation. -/
  config : Config
  /-- the side of the link this instance stands on (log 9); written by no operation. -/
  side : Side
  /-- the decoder (R20). -/
  dec : Decoder
  /-- the reactor's registers (R20). -/
  reactor : Reactor
  /-- `sample_id` (R31). -/
  sampleId : Word
  /-- the telemetry channel, oldest first (R52). -/
  tlmCh : List TelemetryRecord
  /-- the command channel, oldest first (R53). -/
  cmdCh : List Command
  /-- the bridge's overwrite-latest cell (R54). -/
  latest : Option TelemetryRecord
  /-- commands a bridge has been given and has not sent yet (R169). -/
  upstream : List Command
  /-- the outputs of the last operation (R33; log 4). -/
  out : Outputs
  /-- what the host asks for next, oldest first (log 2). -/
  pending : List HostEvent
deriving DecidableEq, Repr

/-- Why the machine stops. The block itself has no fatal error (R180). -/
inductive Fault where
  /-- An access to a buffer cell that does not exist, address 64 or more (R26, R35). Raised by DEC.PAYLOAD (`idx` above
  63) and DEC.CK_OK (`len` above 64), also inside COMMS.ITER and the frame rows. Safe: no state reached from reset has
  such a register (R97). -/
  | bufferRange
deriving DecidableEq, Repr

/-- Why an instruction has no meaning here. -/
inductive Refusal where
  /-- Raised by `exec` alone, for an instruction the model gives no meaning yet. Safe. -/
  | notModelled (mnemonic : String)
  /-- Raised by the nine DEC rows where `dec_state`, the byte and `checksum_acc` do not select the row: the spec gives a
  row its effect only where it is selected (R73, R85; log 14). Safe. -/
  | notSelected
  /-- Raised by CKSUM, ENC.FRAME and FRAME for a payload of more than 64 bytes: outside the operation's domain (R111,
  R112, U1; log 16). Safe. -/
  | payloadTooLong
  /-- Raised by `step` for a configuration outside the constraints of R9: "the model refuses such a configuration"
  (R214; log 17). Safe. -/
  | inadmissibleConfig
deriving DecidableEq, Repr

/-- Power-on reset under the configuration `c`, on the given side (R38, R210): decoder idle, buffer PAYLOAD_INIT, reactor
at (RESET_STATE, RESET_POWER), `sample_id` 0, channels and cell empty. -/
def State.powerOn (c : Config) (side : Side) : State where
  config := c
  side := side
  dec := { decState := .waitStart, msgType := 0, len := 0, idx := 0, checksumAcc := 0, payload := c.payloadInit }
  reactor := { state := c.resetState, power := c.resetPower }
  sampleId := sampleIdReset
  tlmCh := []
  cmdCh := []
  latest := none
  upstream := []
  out := {}
  pending := []

/-- The machine right after reset: power-on under the configuration the model names (log 5, 6, 7), on the reactor side
(log 9), with nothing pending (log 2). -/
def State.reset : State := State.powerOn Config.chosen .reactor

end Sys2Proof.Machine
end

