-- ==== Sys2Proof/Machine/Ops.lean ====
section
/-! DEFINITION. The named operations over the buffer, the registers, the outputs and the channels; the reset of the
decoder and the entry to Scram, the block's analogues of taking an exception (spec 00_scope R6, 60_exceptions R193),
with the return from Scram beside them (R194). -/

namespace Sys2Proof

/-! ## The payload buffer (R26, R109) -/

/-- What a cell that is not listed reads as (PAYLOAD_INIT is OPEN: DESIGN CHOICE, log 7). -/
def Memory.unlisted : Byte := 0

/-- The byte of a cell. -/
def Memory.get : Memory → Nat → Byte
  | [], _ => Memory.unlisted
  | (k, v) :: m, a => if k = a then v else Memory.get m a

/-- The cells with cell `a` set, in canonical form: addresses rising, no entry that reads as an unlisted cell does. -/
def Memory.put : Memory → Nat → Byte → Memory
  | [], a, b => if b = Memory.unlisted then [] else [(a, b)]
  | (k, v) :: m, a, b =>
    if k < a then (k, v) :: Memory.put m a b
    else if k = a then (if b = Memory.unlisted then m else (a, b) :: m)
    else (if b = Memory.unlisted then (k, v) :: m else (a, b) :: (k, v) :: m)

/-- Every listed address is at least `lo` and below 64, the addresses strictly rise, and no entry is the unlisted byte. -/
def Memory.wfFrom (lo : Nat) : Memory → Bool
  | [] => true
  | (k, v) :: m => decide (lo ≤ k) && decide (k < maxPayload) && v != Memory.unlisted && Memory.wfFrom (k + 1) m

/-- The canonical form of the buffer. -/
def Memory.wf (m : Memory) : Bool := Memory.wfFrom 0 m

/-- `payload[a]`: cells 0..63 exist and no other (R26, R48). -/
def Memory.read (m : Memory) (a : Nat) : Option Byte :=
  if a < maxPayload then some (m.get a) else none

/-- `MemWrite(a, 1, b)` (R11). -/
def Memory.write (m : Memory) (a : Nat) (b : Byte) : Option Memory :=
  if a < maxPayload then some (m.put a b) else none

/-- `MemRead(0, n)` (R11): cells 0..n-1 in index order; requires n ≤ 64. -/
def Memory.readFirst (m : Memory) (n : Nat) : Option (List Byte) :=
  if n ≤ maxPayload then some ((List.range n).map m.get) else none

namespace Machine

/-! ## Outputs (R33) -/

/-- The state at the start of an operation: the previous operation's outputs are gone (R33). -/
def State.quiet (s : State) : State := { s with out := {} }

/-- `raise e` (R11, R180): the event joins the operation's outputs and changes nothing else. -/
def State.raise (s : State) (e : Event) : State :=
  { s with out := { s.out with events := s.out.events ++ [e] } }

/-- The value of a function call, which reads and writes no register (R110). -/
def State.returning (s : State) (r : CallResult) : State :=
  { s with out := { s.out with result := some r } }

/-! ## Anomaly entry and return (R6, R193, R194) -/

/-- `reset_decoder()` (R86): the four working registers are cleared, the buffer is not written. -/
def Decoder.reset (d : Decoder) : Decoder :=
  { d with decState := .waitStart, msgType := 0, len := 0, idx := 0, checksumAcc := 0 }

/-- Entry to Scram (R132, R145): `(Scram, 0)` from any state; nothing is saved (R193). -/
def Reactor.enterScram (_r : Reactor) : Reactor := { state := .scram, power := 0 }

/-- The return from Scram (R133, R194): `(Normal, 50)` from any state. -/
def Reactor.resetNormal (_r : Reactor) : Reactor := { state := .normal, power := powerAfterResetNormal }

/-! ## The channels (R52 to R54, R57) -/

/-- Non-blocking send to the telemetry channel; a full channel drops the new record (R52). -/
def State.sendTelemetry (s : State) (r : TelemetryRecord) : State :=
  if s.tlmCh.length < s.config.tlmChCap then { s with tlmCh := s.tlmCh ++ [r] }
  else s.raise (.tlmChFull r.sampleId)

/-- Non-blocking send to the command channel; a full channel drops the new command (R53). -/
def State.sendCommand (s : State) (c : Command) : State :=
  if s.cmdCh.length < s.config.cmdChCap then { s with cmdCh := s.cmdCh ++ [c] }
  else s.raise (.cmdChFull c)

/-- `put(r)` of the overwrite-latest cell: it replaces whatever the cell held and raises nothing (R54). -/
def State.putLatest (s : State) (r : TelemetryRecord) : State := { s with latest := some r }

/-- `take()` of the overwrite-latest cell: it returns and empties it (R54). -/
def State.takeLatest (s : State) : State :=
  match s.latest with
  | some r => { s with latest := none }.returning (.record r)
  | none => s.returning .dropped

end Machine

end Sys2Proof
end

