-- ==== Sys2Proof/Machine/Operands.lean ====
section
/-! DEFINITION. Operand forms: the payload operands of a received frame (spec 41_encoder_payload R116, R119) and
SetPower's value (R72, R134). -/

namespace Sys2Proof.Machine

/-- `TLM.UNPACK(n, p)` (R116, R79): the record, or the event of the drop. -/
def unpackTelemetry (p : List Byte) : Except Event TelemetryRecord :=
  if p.length < tlmPayloadLen then .error (.tlmMalformed p.length)
  else
    match telemetryFields p with
    | some r => .ok r
    | none => .error (.tlmMalformed p.length)

/-- `CMD.UNPACK(n, p)` (R119, R76 to R78): the command, or the event of the drop. The length is tested before any byte
the test covers is read. -/
def unpackCommand (p : List Byte) : Except Event Command :=
  match p with
  | [] => .error (.cmdUndersize 0)
  | id :: _ =>
    if id = cmdIdScram then .ok .scram
    else if id = cmdIdResetNormal then .ok .resetNormal
    else if id = cmdIdSetPower then
      if p.length < cmdLenSetPower then .error (.cmdUndersize p.length)
      else .ok (.setPower (le32At p 1))
    else .error (.cmdUnknown id)

/-- `clamp(v, 0, 100)` of a signed 32-bit value (R11, R134, R151), two's complement (R42). -/
def clampPower (v : Word) : Byte :=
  if v.toInt < 0 then 0 else if 100 < v.toInt then powerMax else BitVec.ofInt 8 v.toInt

end Sys2Proof.Machine
end

