-- ==== Sys2Proof/Machine/Flags.lean ====
section
/-! DEFINITION. The conditions that take the place of flags (spec 10_state R33): the ordered comparisons of binary32
values (42_reactor R144), TEMP_CLEAR (R9, D11), the three conditions of the evaluation (R135), the admissible
configurations (R9, R214), and the codes of the events (60_exceptions R181). -/

namespace Sys2Proof.Machine

/-! ## binary32 (R42, R144) -/

/-- Exponent and fraction of a binary32 pattern, as one number: it orders the magnitudes. -/
def f32Mag (u : Word) : Nat := u.toNat % 2 ^ 31

/-- A NaN: exponent all ones, fraction not zero. -/
def f32IsNaN (u : Word) : Bool := decide (0x7F800000 < f32Mag u)

/-- Neither an infinity nor a NaN. -/
def f32IsFinite (u : Word) : Bool := decide (f32Mag u < 0x7F800000)

/-- A number that orders the binary32 values that are no NaN: -0 and +0 are equal, infinities stand at the ends (R144). -/
def f32Key (u : Word) : Int := if u.msb then -(f32Mag u : Int) else (f32Mag u : Int)

/-- `a < b`, false with a NaN operand (R144). -/
def f32Lt (a b : Word) : Bool := !f32IsNaN a && !f32IsNaN b && decide (f32Key a < f32Key b)

/-- `a > b`, false with a NaN operand (R144). -/
def f32Gt (a b : Word) : Bool := f32Lt b a

/-- `a ≥ b`, false with a NaN operand (R144). -/
def f32Ge (a b : Word) : Bool := !f32IsNaN a && !f32IsNaN b && decide (f32Key b ≤ f32Key a)

/-- The magnitude of a finite binary32 value in units of 2^-149 (the least positive value). -/
def f32MagUnits (u : Word) : Nat :=
  if f32Mag u / 2 ^ 23 = 0 then f32Mag u % 2 ^ 23
  else (2 ^ 23 + f32Mag u % 2 ^ 23) * 2 ^ (f32Mag u / 2 ^ 23 - 1)

/-- A finite binary32 value in units of 2^-149, exactly. -/
def f32Units (u : Word) : Int := if u.msb then -(f32MagUnits u : Int) else (f32MagUnits u : Int)

/-- Exponent and fraction of the binary32 value nearest `n` units of 2^-149, ties to even. -/
def f32RoundMag (n : Nat) : Nat :=
  if n < 2 ^ 24 then n
  else
    let sh := Nat.log2 n - 23
    let q := n / 2 ^ sh
    let r := n % 2 ^ sh
    let up := decide (2 ^ (sh - 1) < r) || (decide (r = 2 ^ (sh - 1)) && decide (q % 2 = 1))
    min (sh * 2 ^ 23 + (if up then q + 1 else q)) 0x7F800000

/-- `fl32` of a number of units of 2^-149 (R11): nearest binary32, ties to even. -/
def fl32 (n : Int) : Word :=
  BitVec.ofNat 32 ((if n < 0 then 2 ^ 31 else 0) + f32RoundMag n.natAbs)

/-- TEMP_CLEAR = fl32(TEMP_WARNING - HYST_MARGIN) (R9, D11). -/
def tempClear (c : Config) : Word := fl32 (f32Units c.tempWarning - f32Units hystMargin)

/-! ## The conditions of the evaluation (R135) -/

/-- `crit := temp ≥ TEMP_CRITICAL or accel > MAJOR_QUAKE` (R135). -/
def isCrit (c : Config) (temp accel : Word) : Bool := f32Ge temp c.tempCritical || f32Gt accel majorQuake

/-- `warn := temp ≥ TEMP_WARNING or accel > MINOR_QUAKE` (R135). -/
def isWarn (c : Config) (temp accel : Word) : Bool := f32Ge temp c.tempWarning || f32Gt accel minorQuake

/-- `clear := temp < TEMP_CLEAR` (R135). -/
def isClear (c : Config) (temp : Word) : Bool := f32Lt temp (tempClear c)

/-! ## Configurations and events -/

/-- The constraints on the OPEN parameters (R9, R38, R214). -/
def admissible (c : Config) : Bool :=
  f32IsFinite c.tempWarning && f32IsFinite c.tempCritical && f32Gt c.tempCritical c.tempWarning &&
  decide (1 ≤ c.tlmChCap) && decide (1 ≤ c.cmdChCap) && decide (c.resetPower ≤ powerMax) &&
  (c.resetState != .scram || c.resetPower == 0) && Memory.wf c.payloadInit

/-- The code of an event (R181, D24). -/
def eventCode : Event → Nat
  | .oversize _ => 1
  | .checksum _ _ => 2
  | .unknownType _ => 3
  | .cmdUndersize _ => 4
  | .cmdUnknown _ => 5
  | .sensorFail => 6
  | .tlmChFull _ => 7
  | .cmdChFull _ => 8
  | .tlmMalformed _ => 9

end Sys2Proof.Machine
end

