-- ==== Sys2Proof/Machine/Decoder.lean ====
section
/-! DEFINITION. The frame decoder (spec 40_decoder): the nine rows as operations on the decoder's registers, the step
function over them, and the meanings of the DEC operations. -/

namespace Sys2Proof.Machine

/-- What one byte operation answers (R85, R12): the decoder after it, at most one frame, at most one event. -/
structure DecResult where
  dec : Decoder
  frame : Option Frame := none
  event : Option Event := none
deriving DecidableEq, Repr

/-! ## The rows (R87 to R96) -/

/-- Row "WaitStart | b == start_marker" (R87). -/
def rowWsStart (d : Decoder) : Except Fault DecResult := .ok { dec := { d with decState := .readType } }

/-- Row "WaitStart | else" (R88). -/
def rowWsNoise (d : Decoder) : Except Fault DecResult := .ok { dec := d }

/-- Row "ReadType | any" (R89). -/
def rowType (d : Decoder) (b : Byte) : Except Fault DecResult :=
  .ok { dec := { d with msgType := b, checksumAcc := b, decState := .readLen } }

/-- Row "ReadLen | b > 64" (R90). -/
def rowLenOver (d : Decoder) (b : Byte) : Except Fault DecResult :=
  .ok { dec := d.reset, event := some (.oversize b) }

/-- Row "ReadLen | b == 0" (R91): `idx` is not written. -/
def rowLenZero (d : Decoder) (b : Byte) : Except Fault DecResult :=
  .ok { dec := { d with len := 0, checksumAcc := d.checksumAcc ^^^ b, decState := .readChecksum } }

/-- Row "ReadLen | 0 < b ≤ 64" (R92). -/
def rowLenOk (d : Decoder) (b : Byte) : Except Fault DecResult :=
  .ok { dec := { d with len := b, checksumAcc := d.checksumAcc ^^^ b, idx := 0, decState := .readPayload } }

/-- Row "ReadPayload | any" (R93): the byte goes to cell `idx`, the test uses the incremented index. -/
def rowPayload (d : Decoder) (b : Byte) : Except Fault DecResult :=
  match d.payload.write d.idx.toNat b with
  | none => .error .bufferRange
  | some m =>
    .ok { dec := { d with
      payload := m
      checksumAcc := d.checksumAcc ^^^ b
      idx := d.idx + 1
      decState := if d.idx + 1 = d.len then .readChecksum else .readPayload } }

/-- Row "ReadChecksum | b == checksum_acc" (R95): the frame is read before the registers are cleared. -/
def rowCkOk (d : Decoder) : Except Fault DecResult :=
  match d.payload.readFirst d.len.toNat with
  | none => .error .bufferRange
  | some p => .ok { dec := d.reset, frame := some { typ := d.msgType, payload := p } }

/-- Row "ReadChecksum | b != checksum_acc" (R96). -/
def rowCkBad (d : Decoder) (b : Byte) : Except Fault DecResult :=
  .ok { dec := d.reset, event := some (.checksum b d.checksumAcc) }

/-! ## The step function (R85) -/

/-- `DecStep` (R85): the row that `dec_state` and the byte select (R73), rows of one state in the table's order (R14). -/
def decStep (d : Decoder) (b : Byte) : Except Fault DecResult :=
  match d.decState with
  | .waitStart => if b = startMarker then rowWsStart d else rowWsNoise d
  | .readType => rowType d b
  | .readLen => if maxPayload < b.toNat then rowLenOver d b else if b = 0 then rowLenZero d b else rowLenOk d b
  | .readPayload => rowPayload d b
  | .readChecksum => if b = d.checksumAcc then rowCkOk d else rowCkBad d b

/-- Feeding a byte string: `decStep` folded from left to right, frames and events collected in order (R85). -/
def decFeed (d : Decoder) : List Byte → Except Fault (Decoder × List Frame × List Event)
  | [] => .ok (d, [], [])
  | b :: bs =>
    match decStep d b with
    | .error f => .error f
    | .ok r =>
      match decFeed r.dec bs with
      | .error f => .error f
      | .ok (d', fs, es) => .ok (d', r.frame.toList ++ fs, r.event.toList ++ es)

/-- The state after a byte operation: the decoder written, its frame and event joined to the outputs. -/
def State.afterByte (s : State) (r : DecResult) : State :=
  { s with
    dec := r.dec
    out := { s.out with frames := s.out.frames ++ r.frame.toList, events := s.out.events ++ r.event.toList } }

/-- One byte operation as an instruction: refused where the row is not selected (log 14). -/
def State.byteOp (s : State) (selected : Bool) (r : Except Fault DecResult) : Host.Outcome State Fault Refusal :=
  if selected then
    match r with
    | .ok r => .next (s.quiet.afterByte r)
    | .error f => .fault f
  else .refused .notSelected

/-! ## Meanings -/

/-- DEC.WS_START (R87). -/
def execDecWsStart (b : Byte) (s : State) : Host.Outcome State Fault Refusal :=
  s.byteOp (selects s.dec.decState s.dec.checksumAcc (.decWsStart b)) (rowWsStart s.dec)

/-- DEC.WS_NOISE (R88). -/
def execDecWsNoise (b : Byte) (s : State) : Host.Outcome State Fault Refusal :=
  s.byteOp (selects s.dec.decState s.dec.checksumAcc (.decWsNoise b)) (rowWsNoise s.dec)

/-- DEC.TYPE (R89). -/
def execDecType (b : Byte) (s : State) : Host.Outcome State Fault Refusal :=
  s.byteOp (selects s.dec.decState s.dec.checksumAcc (.decType b)) (rowType s.dec b)

/-- DEC.LEN_OVER (R90). -/
def execDecLenOver (b : Byte) (s : State) : Host.Outcome State Fault Refusal :=
  s.byteOp (selects s.dec.decState s.dec.checksumAcc (.decLenOver b)) (rowLenOver s.dec b)

/-- DEC.LEN_ZERO (R91). -/
def execDecLenZero (b : Byte) (s : State) : Host.Outcome State Fault Refusal :=
  s.byteOp (selects s.dec.decState s.dec.checksumAcc (.decLenZero b)) (rowLenZero s.dec b)

/-- DEC.LEN_OK (R92). -/
def execDecLenOk (b : Byte) (s : State) : Host.Outcome State Fault Refusal :=
  s.byteOp (selects s.dec.decState s.dec.checksumAcc (.decLenOk b)) (rowLenOk s.dec b)

/-- DEC.PAYLOAD (R93). -/
def execDecPayload (b : Byte) (s : State) : Host.Outcome State Fault Refusal :=
  s.byteOp (selects s.dec.decState s.dec.checksumAcc (.decPayload b)) (rowPayload s.dec b)

/-- DEC.CK_OK (R95). -/
def execDecCkOk (b : Byte) (s : State) : Host.Outcome State Fault Refusal :=
  s.byteOp (selects s.dec.decState s.dec.checksumAcc (.decCkOk b)) (rowCkOk s.dec)

/-- DEC.CK_BAD (R96). -/
def execDecCkBad (b : Byte) (s : State) : Host.Outcome State Fault Refusal :=
  s.byteOp (selects s.dec.decState s.dec.checksumAcc (.decCkBad b)) (rowCkBad s.dec b)

/-- DEC.RESET (R86): in every state, without an event. -/
def execDecReset (s : State) : Host.Outcome State Fault Refusal :=
  .next { s.quiet with dec := s.dec.reset }

end Sys2Proof.Machine
end

