-- ==== Sys2Proof/Machine/Codec.lean ====
section
/-! DEFINITION. The checksum, the frame encoder and the payload operations (spec 41_encoder_payload): pure functions
of their operands, which read and write no register (R110); the value is the operation's output. -/

namespace Sys2Proof.Machine

/-- CKSUM (R111), defined on payloads of at most 64 bytes. -/
def execCksum (t : Byte) (p : List Byte) (s : State) : Host.Outcome State Fault Refusal :=
  if p.length ≤ maxPayload then .next (s.quiet.returning (.byte (checksum t p))) else .refused .payloadTooLong

/-- ENC.FRAME (R112), defined on payloads of at most 64 bytes (U1). -/
def execEncFrame (t : Byte) (p : List Byte) (s : State) : Host.Outcome State Fault Refusal :=
  if p.length ≤ maxPayload then .next (s.quiet.returning (.bytes (frameBytes t p))) else .refused .payloadTooLong

/-- TLM.PACK (R115). A power above 100, outside the record of R117, is packed as it stands: DESIGN CHOICE (log 30). -/
def execTlmPack (r : TelemetryRecord) (s : State) : Host.Outcome State Fault Refusal :=
  .next (s.quiet.returning (.bytes (telemetryBytes r)))

/-- TLM.UNPACK (R116): the record, or a drop with EV_TLM_MALFORMED. -/
def execTlmUnpack (p : List Byte) (s : State) : Host.Outcome State Fault Refusal :=
  match unpackTelemetry p with
  | .ok r => .next (s.quiet.returning (.record r))
  | .error e => .next ((s.quiet.returning .dropped).raise e)

/-- CMD.PACK (R118). -/
def execCmdPack (c : Command) (s : State) : Host.Outcome State Fault Refusal :=
  .next (s.quiet.returning (.bytes (commandBytes c)))

/-- CMD.UNPACK (R119): the command, or a drop with its event. -/
def execCmdUnpack (p : List Byte) (s : State) : Host.Outcome State Fault Refusal :=
  match unpackCommand p with
  | .ok c => .next (s.quiet.returning (.command c))
  | .error e => .next ((s.quiet.returning .dropped).raise e)

end Sys2Proof.Machine
end

