-- ==== Sys2Proof/Machine/Reactor.lean ====
section
/-! DEFINITION. The reactor state machine (spec 42_reactor). -/

namespace Sys2Proof.Machine

/-- A command applied to `(state, power)` (R131 to R134). -/
def Reactor.apply (r : Reactor) : Command → Reactor
  | .scram => r.enterScram
  | .resetNormal => r.resetNormal
  | .setPower v => { r with power := clampPower v }

/-- A batch of commands, applied in arrival order (R131, R155). -/
def Reactor.applyAll (r : Reactor) (cmds : List Command) : Reactor := cmds.foldl Reactor.apply r

/-- The environmental evaluation (R135 to R142), rows of a state in the order written (R14). -/
def Reactor.eval (c : Config) (temp accel : Word) (r : Reactor) : Reactor :=
  match r.state with
  | .normal =>
    if isCrit c temp accel then r.enterScram
    else if isWarn c temp accel then { r with state := .warning }
    else r
  | .warning =>
    if isCrit c temp accel then r.enterScram
    else if isClear c temp then { r with state := .normal }
    else r
  | .scram => { r with power := 0 }

/-- The whole step (R146): the fail-safe if the sensor failed (R145), else the batch and then one evaluation. -/
def Reactor.step (c : Config) (cmds : List Command) (temp accel : Word) (ok : Bool) (r : Reactor) : Reactor :=
  if ok then (r.applyAll cmds).eval c temp accel else r.enterScram

/-- EV_SENSOR_FAIL where the sensor failed (R145, R188). -/
def State.noteSensor (s : State) (ok : Bool) : State := if ok then s else s.raise .sensorFail

/-- RSM.CMD_SCRAM (R132). -/
def execRsmCmdScram (s : State) : Host.Outcome State Fault Refusal :=
  .next { s.quiet with reactor := s.reactor.apply .scram }

/-- RSM.CMD_RESET_NORMAL (R133). -/
def execRsmCmdResetNormal (s : State) : Host.Outcome State Fault Refusal :=
  .next { s.quiet with reactor := s.reactor.apply .resetNormal }

/-- RSM.CMD_SET_POWER (R134). -/
def execRsmCmdSetPower (v : Word) (s : State) : Host.Outcome State Fault Refusal :=
  .next { s.quiet with reactor := s.reactor.apply (.setPower v) }

/-- RSM.EVAL (R135). -/
def execRsmEval (temp accel : Word) (s : State) : Host.Outcome State Fault Refusal :=
  .next { s.quiet with reactor := s.reactor.eval s.config temp accel }

/-- RSM.FAILSAFE (R145). -/
def execRsmFailsafe (s : State) : Host.Outcome State Fault Refusal :=
  .next ({ s.quiet with reactor := s.reactor.enterScram }.noteSensor false)

/-- RSM.STEP (R146). -/
def execRsmStep (cmds : List Command) (temp accel : Word) (ok : Bool) (s : State) :
    Host.Outcome State Fault Refusal :=
  .next ({ s.quiet with reactor := s.reactor.step s.config cmds temp accel ok }.noteSensor ok)

end Sys2Proof.Machine
end

