-- ==== Sys2Proof/Machine/Sequencing.lean ====
section
/-! DEFINITION. The control step and the comms iteration (spec 43_sequencing), and what they share with the frame
rows: inbound bytes through the decoder, each completed frame dispatched by type (R166 items 2 to 4, R169). -/

namespace Sys2Proof.Machine

/-! ## Inbound (R166, R168, R169) -/

/-- The reactor side: a Command frame is unpacked and its command pushed; any other type is discarded (R166, R168). -/
def State.dispatchReactor (s : State) (f : Frame) : State :=
  if f.typ = typeCommand then
    match unpackCommand f.payload with
    | .ok c => s.sendCommand c
    | .error e => s.raise e
  else s.raise (.unknownType f.typ)

/-- The bridge side: a Telemetry frame is unpacked into the cell; any other type is discarded (R169). -/
def State.dispatchBridge (s : State) (f : Frame) : State :=
  if f.typ = typeTelemetry then
    match unpackTelemetry f.payload with
    | .ok r => s.putLatest r
    | .error e => s.raise e
  else s.raise (.unknownType f.typ)

/-- An emitted frame, on the side the instance stands on. -/
def State.dispatch (s : State) (f : Frame) : State :=
  match s.side with
  | .reactor => s.dispatchReactor f
  | .bridge => s.dispatchBridge f

/-- The frame a byte operation emitted, if any, is dispatched before the next byte is fed (R166). -/
def State.dispatchOption (s : State) : Option Frame → State
  | none => s
  | some f => s.dispatch f

/-- One inbound byte: a decoder operation, its event logged, its frame dispatched (R166). -/
def State.rxByte (s : State) (b : Byte) : Except Fault State :=
  match decStep s.dec b with
  | .ok r => .ok ((s.afterByte r).dispatchOption r.frame)
  | .error f => .error f

/-- Inbound bytes in arrival order (R51, R166). -/
def State.rxBytes (s : State) : List Byte → Except Fault State
  | [] => .ok s
  | b :: bs =>
    match s.rxByte b with
    | .ok s' => s'.rxBytes bs
    | .error f => .error f

/-- Inbound bytes as a whole operation. -/
def State.receive (s : State) (bytes : List Byte) : Host.Outcome State Fault Refusal :=
  match s.rxBytes bytes with
  | .ok s' => .next s'
  | .error f => .fault f

/-! ## Outbound (R166 item 1, R167, R169) -/

/-- The channel of the side is drained; one frame is written for each item, oldest first (R113, R167, R169). -/
def State.transmit (s : State) : State :=
  match s.side with
  | .reactor =>
    { s with
      tlmCh := []
      out := { s.out with tx := s.out.tx ++ s.tlmCh.flatMap fun r => frameBytes typeTelemetry (telemetryBytes r) } }
  | .bridge =>
    { s with
      upstream := []
      out := { s.out with tx := s.out.tx ++ s.upstream.flatMap fun c => frameBytes typeCommand (commandBytes c) } }

/-! ## Meanings -/

/-- The record of a control step: the state and power after the transition, `sample_id` before the increment, the
sample as delivered (R160, R163, D14). -/
def State.buildRecord (s : State) (temp accel : Word) : TelemetryRecord where
  sampleId := s.sampleId
  temperature := temp
  accelMag := accel
  state := s.reactor.state
  power := s.reactor.power

/-- Item 4 of the control step: one call `indicator.set(current_state)` (R164). -/
def State.setIndicator (s : State) : State :=
  { s with out := { s.out with indicator := s.out.indicator ++ [s.reactor.state] } }

/-- Items 5 and 6 of the control step: the record is built, the counter advances, the record is sent (R160, R163,
R165). -/
def State.reportSample (s : State) (temp accel : Word) : State :=
  { s with
    sampleId := s.sampleId + 1
    out := { s.out with record := some (s.buildRecord temp accel) } }.sendTelemetry (s.buildRecord temp accel)

/-- CTRL.STEP (R160): drain the command channel, one reactor step, one indicator call, the record. -/
def execCtrlStep (temp accel : Word) (ok : Bool) (s : State) : Host.Outcome State Fault Refusal :=
  .next (((({ s.quiet with
    cmdCh := []
    reactor := s.reactor.step s.config s.cmdCh temp accel ok }).noteSensor ok).setIndicator).reportSample temp accel)

/-- COMMS.ITER (R166, and R169 on the bridge side): drain and transmit, then the bytes read. -/
def execCommsIter (bytes : List Byte) (s : State) : Host.Outcome State Fault Refusal :=
  s.quiet.transmit.receive bytes

end Sys2Proof.Machine
end

