-- ==== Sys2Proof/Machine/Link.lean ====
section
/-! DEFINITION. The frame rows of the table (spec 30_encoding R61, R66, R71): a whole frame arrives on the link; its
bytes go through the decoder and what it emits is dispatched by type (R85, R166, R168, R169; log 11). -/

namespace Sys2Proof.Machine

/-- FRAME (R61), defined on payloads of at most 64 bytes (R112). -/
def execFrame (t : Byte) (p : List Byte) (s : State) : Host.Outcome State Fault Refusal :=
  if p.length ≤ maxPayload then s.quiet.receive (frameBytes t p) else .refused .payloadTooLong

/-- TELEMETRY (R66). A power above 100 is sent as it stands: DESIGN CHOICE (log 30). -/
def execTelemetry (r : TelemetryRecord) (s : State) : Host.Outcome State Fault Refusal :=
  s.quiet.receive (frameBytes typeTelemetry (telemetryBytes r))

/-- SCRAM (R71). -/
def execScram (s : State) : Host.Outcome State Fault Refusal :=
  s.quiet.receive (frameBytes typeCommand (commandBytes .scram))

/-- RESET_NORMAL (R71). -/
def execResetNormal (s : State) : Host.Outcome State Fault Refusal :=
  s.quiet.receive (frameBytes typeCommand (commandBytes .resetNormal))

/-- SET_POWER (R71, R72). -/
def execSetPower (v : Word) (s : State) : Host.Outcome State Fault Refusal :=
  s.quiet.receive (frameBytes typeCommand (commandBytes (.setPower v)))

end Sys2Proof.Machine
end

