-- ==== Sys2Proof/Machine/Dispatch.lean ====
section
/-! DEFINITION. One arm per operation: its meaning. -/

namespace Sys2Proof.Machine

def exec (i : Instr) (s : State) : Host.Outcome State Fault Refusal :=
  match i with
  | .frame t p => Sys2Proof.Machine.execFrame t p s
  | .telemetry r => Sys2Proof.Machine.execTelemetry r s
  | .scram => Sys2Proof.Machine.execScram s
  | .resetNormal => Sys2Proof.Machine.execResetNormal s
  | .setPower v => Sys2Proof.Machine.execSetPower v s
  | .rsmCmdScram => Sys2Proof.Machine.execRsmCmdScram s
  | .rsmCmdResetNormal => Sys2Proof.Machine.execRsmCmdResetNormal s
  | .rsmCmdSetPower v => Sys2Proof.Machine.execRsmCmdSetPower v s
  | .decWsStart b => Sys2Proof.Machine.execDecWsStart b s
  | .decWsNoise b => Sys2Proof.Machine.execDecWsNoise b s
  | .decType b => Sys2Proof.Machine.execDecType b s
  | .decLenOver b => Sys2Proof.Machine.execDecLenOver b s
  | .decLenZero b => Sys2Proof.Machine.execDecLenZero b s
  | .decLenOk b => Sys2Proof.Machine.execDecLenOk b s
  | .decPayload b => Sys2Proof.Machine.execDecPayload b s
  | .decCkOk b => Sys2Proof.Machine.execDecCkOk b s
  | .decCkBad b => Sys2Proof.Machine.execDecCkBad b s
  | .decReset => Sys2Proof.Machine.execDecReset s
  | .cksum t p => Sys2Proof.Machine.execCksum t p s
  | .encFrame t p => Sys2Proof.Machine.execEncFrame t p s
  | .tlmPack r => Sys2Proof.Machine.execTlmPack r s
  | .tlmUnpack p => Sys2Proof.Machine.execTlmUnpack p s
  | .cmdPack c => Sys2Proof.Machine.execCmdPack c s
  | .cmdUnpack p => Sys2Proof.Machine.execCmdUnpack p s
  | .rsmEval temp accel => Sys2Proof.Machine.execRsmEval temp accel s
  | .rsmFailsafe => Sys2Proof.Machine.execRsmFailsafe s
  | .rsmStep cmds temp accel ok => Sys2Proof.Machine.execRsmStep cmds temp accel ok s
  | .ctrlStep temp accel ok => Sys2Proof.Machine.execCtrlStep temp accel ok s
  | .commsIter bytes => Sys2Proof.Machine.execCommsIter bytes s

end Sys2Proof.Machine
end

