-- ==== Sys2Proof/Machine/Run.lean ====
section
/-! DEFINITION. Taking the next thing the host asks for and running it (spec 60_exceptions R191, R192). -/

namespace Sys2Proof.Machine

/-- An invocation whose bytes are no instruction of its format still has the effect the rules give those bytes: a frame
image that is no frame is fed to the decoder byte by byte (R44, R85), a Command payload that is no command is dropped by
CMD.UNPACK with its event (R76, R77). Input bytes and calls are always instructions. -/
def runUndecoded (v : Invocation) (s : State) : Host.Outcome State Fault Refusal :=
  match v with
  | .frame bytes => s.quiet.receive bytes
  | .command payload => execCmdUnpack payload s
  | .byte _ => .next s
  | .call _ => .next s

/-- An invocation: the operation it decodes to, in the decoder's present state (R73). -/
def runInvocation (v : Invocation) (s : State) : Host.Outcome State Fault Refusal :=
  match decode s.dec.decState s.dec.checksumAcc v with
  | .ok i => exec i s
  | .error _ => runUndecoded v s

/-- One event of the host. -/
def runEvent (e : HostEvent) (s : State) : Host.Outcome State Fault Refusal :=
  match e with
  | .invoke v => runInvocation v s
  | .powerOn => .next { State.powerOn s.config s.side with pending := s.pending }
  | .upstream c => .next { s.quiet with upstream := s.upstream ++ [c] }
  | .takeLatest => .next s.quiet.takeLatest

/-- The oldest event pending is taken and run; with none pending nothing happens (R107, U15). -/
def runNext (s : State) : Host.Outcome State Fault Refusal :=
  match s.pending with
  | [] => .next s
  | e :: rest => runEvent e { s with pending := rest }

/-- An inadmissible configuration is refused (R214). -/
def runStep (s : State) : Host.Outcome State Fault Refusal :=
  if admissible s.config then runNext s else .refused .inadmissibleConfig

/-- An invocation put in front of everything pending. -/
def State.presenting (s : State) (v : Invocation) : State :=
  { s with pending := .invoke v :: s.pending }

end Sys2Proof.Machine
end

