-- ==== Sys2Proof/Machine/Step.lean ====
section
/-! DEFINITION. One step of the machine: one event of the host, a whole operation (spec 00_scope R12, 70 R232). -/

namespace Sys2Proof.Machine

/-- One step. -/
def step (s : State) : Host.Outcome State Fault Refusal := runStep s

/-- The state with the instruction of a table word presented next (log 2, 3). -/
def State.withFetchWord (s : State) (nbits w : Nat) : State := s.presenting (invocationOfWord nbits w)

end Sys2Proof.Machine
end

