-- ==== Sys2Proof/Safety.lean ====
section
/-! DEFINITION. What statements are written in: idle decoders, the invariants of the spec (00_scope R19, 40_decoder
R97, 42_reactor R152), who may write what (10_state R39), runs of operations, and the value of a binary32 pattern. -/

namespace Sys2Proof.Machine

/-! ## States -/

/-- Idle: in WaitStart with the four working registers 0 (R16, R27, R97 item 4). -/
abbrev idle (d : Decoder) : Prop :=
  d.decState = .waitStart ∧ d.msgType = 0 ∧ d.len = 0 ∧ d.idx = 0 ∧ d.checksumAcc = 0

/-- R97: the invariants of every decoder state reachable from reset; and the buffer is in canonical form. -/
abbrev decoderOk (d : Decoder) : Prop :=
  d.len.toNat ≤ 64 ∧
  (d.decState = .readPayload → 1 ≤ d.len.toNat ∧ d.idx.toNat < d.len.toNat) ∧
  (d.decState = .readChecksum → d.len = 0 ∨ d.idx = d.len) ∧
  (d.decState = .waitStart → d.msgType = 0 ∧ d.len = 0 ∧ d.idx = 0 ∧ d.checksumAcc = 0) ∧
  Memory.wf d.payload = true

/-- R152, second half: in Scram the power is 0. -/
abbrev scramPowerZero (r : Reactor) : Prop := r.state = .scram → r.power = 0

/-- What every step keeps: an admissible configuration (R9), R97, power at most 100 (R19), both channels within their
capacities (R52, R53), and no record with a power above 100 in the channel or the cell (R117). -/
abbrev stateOk (s : State) : Prop :=
  admissible s.config = true ∧ decoderOk s.dec ∧ s.reactor.power ≤ 100 ∧
  s.tlmCh.length ≤ s.config.tlmChCap ∧ s.cmdCh.length ≤ s.config.cmdChCap ∧
  (∀ r ∈ s.tlmCh, r.power ≤ 100) ∧ (∀ r ∈ s.latest, r.power ≤ 100)

/-- The type of frame a side recognises (R63, R74). -/
def recognised : Side → Byte
  | .reactor => 0x10
  | .bridge => 0x01

/-! ## What becomes of an emitted frame (R166 items 3 and 4, R168, R169) -/

/-- From `a` to `b` one event is raised and nothing else changes. -/
def eventOnly (e : Event) (a b : State) : Prop :=
  b = { a with out := { a.out with events := a.out.events ++ [e] } }

/-- From `a` to `b` the frame `f` is handled, and nothing else happens. On the reactor side a Command frame gives its
command to the channel, or EV_CMD_CH_FULL where that is full, or the event of the drop; on the bridge side a Telemetry
frame gives its record to the cell, or the event of the drop; every other type gives EV_UNKNOWN_TYPE. -/
def frameHandled (f : Frame) (a b : State) : Prop :=
  (a.side = .reactor → f.typ = 0x10 →
    (∀ c, unpackCommand f.payload = .ok c →
      (a.cmdCh.length < a.config.cmdChCap → b = { a with cmdCh := a.cmdCh ++ [c] }) ∧
      (a.config.cmdChCap ≤ a.cmdCh.length → eventOnly (.cmdChFull c) a b)) ∧
    (∀ e, unpackCommand f.payload = .error e → eventOnly e a b)) ∧
  (a.side = .bridge → f.typ = 0x01 →
    (∀ r, unpackTelemetry f.payload = .ok r → b = { a with latest := some r }) ∧
    (∀ e, unpackTelemetry f.payload = .error e → eventOnly e a b)) ∧
  (f.typ ≠ recognised a.side → eventOnly (.unknownType f.typ) a b)

/-! ## Ownership (R39, R196) -/

/-- The operations of the control agent: they alone may write `current_state`, `current_power` and `sample_id`. -/
def ofControlAgent : Instr → Bool
  | .rsmCmdScram => true
  | .rsmCmdResetNormal => true
  | .rsmCmdSetPower _ => true
  | .rsmEval _ _ => true
  | .rsmFailsafe => true
  | .rsmStep _ _ _ _ => true
  | .ctrlStep _ _ _ => true
  | _ => false

/-- The operations that are pure functions of their operands (R110). -/
def isPure : Instr → Bool
  | .cksum _ _ => true
  | .encFrame _ _ => true
  | .tlmPack _ => true
  | .tlmUnpack _ => true
  | .cmdPack _ => true
  | .cmdUnpack _ => true
  | _ => false

/-! ## Runs of operations -/

/-- The command row of a command (R71). -/
def commandInstr : Command → Instr
  | .scram => .rsmCmdScram
  | .resetNormal => .rsmCmdResetNormal
  | .setPower v => .rsmCmdSetPower v

/-- The operations of a list, one after another, stopping at the first fault or refusal. -/
def execAll : List Instr → State → Host.Outcome State Fault Refusal
  | [], s => .next s
  | i :: is, s =>
    match exec i s with
    | .next s' => execAll is s'
    | .fault f => .fault f
    | .refused r => .refused r

/-- `k` steps, stopping at the first fault or refusal. -/
def runSteps : Nat → State → Host.Outcome State Fault Refusal
  | 0, s => .next s
  | k + 1, s =>
    match step s with
    | .next s' => runSteps k s'
    | .fault f => .fault f
    | .refused r => .refused r

/-- The frames that the first `k` steps emit, in order, up to the first fault or refusal. -/
def stepFrames : Nat → State → List Frame
  | 0, _ => []
  | k + 1, s =>
    match step s with
    | .next t => t.out.frames ++ stepFrames k t
    | .fault _ => []
    | .refused _ => []

/-- The events that the first `k` steps raise, in order, up to the first fault or refusal. -/
def stepEvents : Nat → State → List Event
  | 0, _ => []
  | k + 1, s =>
    match step s with
    | .next t => t.out.events ++ stepEvents k t
    | .fault _ => []
    | .refused _ => []

/-! ## The value of a binary32 pattern (R42) -/

/-- The value of a finite binary32 pattern: sign, exponent biased by 127, 23 fraction bits; exponent field 0 is
subnormal. -/
def f32Value (u : Word) : ℚ :=
  (if u.toNat / 2 ^ 31 = 1 then -1 else 1) *
  (if u.toNat / 2 ^ 23 % 2 ^ 8 = 0 then ((u.toNat % 2 ^ 23 : ℕ) : ℚ) / 2 ^ 149
   else (1 + ((u.toNat % 2 ^ 23 : ℕ) : ℚ) / 2 ^ 23) * 2 ^ ((u.toNat / 2 ^ 23 % 2 ^ 8 : ℕ) : ℤ) / 2 ^ 127)

end Sys2Proof.Machine
end

