-- ==== Sys2Proof/Certificates/Slice0/Obligations.lean ====
section
/-! DEFINITION. The statements for the provers. Each is about the machine, from the spec's numbered rules; a docstring
names the rules, or the log entry where the statement rests on a choice of the model; 'derived' marks a rule that the spec
itself gives as its inference. -/

open Sys2Proof Sys2Proof.Machine

/-! ## The step and the decoder of invocations -/

/-- A step runs the operation that the oldest pending invocation decodes to, with that invocation taken off `pending` and
nothing else changed before it (R62, R73; log 1, 2). -/
def Obligations.StepRunsDecodedOperation : Prop :=
  ∀ (s : State) (v : Invocation) (rest : List HostEvent) (i : Instr),
    admissible s.config = true → s.pending = .invoke v :: rest →
    decode s.dec.decState s.dec.checksumAcc v = .ok i →
    step s = exec i { s with pending := rest }

/-- Bytes that are no frame are still fed to the decoder (R44), and a payload that is no command is dropped by CMD.UNPACK
(R76, R77): the model's choice of what the two formats do with such bytes (log 11, 13). -/
def Obligations.UndecodedBytesStillAct : Prop :=
  ∀ (s : State) (rest : List HostEvent) (e : Reject), admissible s.config = true →
    (∀ bytes, s.pending = .invoke (.frame bytes) :: rest → decodeFrame bytes = .error e →
      step s = { s with pending := rest, out := {} }.receive bytes) ∧
    (∀ payload, s.pending = .invoke (.command payload) :: rest → decodeCommand payload = .error e →
      ∃ ev, unpackCommand payload = .error ev ∧
        step s = .next { s with pending := rest, out := { result := some .dropped, events := [ev] } })

/-- Where no operation runs: with nothing pending a step changes nothing, so that the decoder waits inside a partial frame
without a time-out (R107, U15; log 29), and a configuration outside the constraints of R9 is refused (R214; log 17). -/
def Obligations.StepWithoutOperation : Prop :=
  ∀ s : State,
    (admissible s.config = true → s.pending = [] → step s = .next s) ∧
    (admissible s.config = false → step s = .refused .inadmissibleConfig)

/-- Decoding what the encoder writes gives the operation back, with every operand, in every state of the decoder that
selects it (R61, R66, R70 to R73). -/
def Obligations.DecodeEncodeRoundTrip : Prop :=
  ∀ (i : Instr) (st : DecState) (acc : Byte),
    i.wellFormed = true → selects st acc i = true → decode st acc (encode i) = .ok i

/-- Whatever a frame image, a Command payload or a byte decodes to is well formed and selected. -/
def Obligations.DecodedIsWellFormed : Prop :=
  ∀ (st : DecState) (acc : Byte) (v : Invocation) (i : Instr), decode st acc v = .ok i →
    (∀ c, v ≠ .call c) → i.wellFormed = true ∧ selects st acc i = true

/-- Exactly one of the nine rows applies to each state and byte (R73). -/
def Obligations.ByteClassesPartition : Prop :=
  ∀ (st : DecState) (acc b : Byte) (i : Instr), encode i = .byte b →
    (selects st acc i = true ↔ i = classify st acc b)

/-- Words of each family written out from the spec's tables (R71, R73, R87). -/
def Obligations.WrittenWordsDecode : Prop :=
  decodeTableWord 40 0x10010110AA = some .scram ∧
  decodeTableWord 40 0x13020110AA = some .resetNormal ∧
  decodeTableWord 72 0x5D0000004B030510AA = some (.setPower 75) ∧
  decodeTableWord 8 0x01 = some .rsmCmdScram ∧
  decodeTableWord 8 0x02 = some .rsmCmdResetNormal ∧
  decodeTableWord 40 0xFFFFFFFB03 = some (.rsmCmdSetPower (-5)) ∧
  decode .waitStart 0 (.byte 0xAA) = .ok (.decWsStart 0xAA) ∧
  decode .readLen 0 (.byte 0x41) = .ok (.decLenOver 0x41) ∧
  decode .readChecksum 0x5D (.byte 0x5D) = .ok (.decCkOk 0x5D)

/-! ## The decoder's rows -/

/-- DEC.WS_START, DEC.WS_NOISE and DEC.TYPE (R87, R88, R89). -/
def Obligations.WaitStartAndReadTypeRows : Prop :=
  ∀ s : State,
    (s.dec.decState = .waitStart →
      exec (.decWsStart 0xAA) s = .next { s with dec := { s.dec with decState := .readType }, out := {} } ∧
      ∀ b : Byte, b ≠ 0xAA → exec (.decWsNoise b) s = .next { s with out := {} }) ∧
    (s.dec.decState = .readType → ∀ b : Byte, exec (.decType b) s =
      .next { s with dec := { s.dec with msgType := b, checksumAcc := b, decState := .readLen }, out := {} })

/-- DEC.LEN_OVER, DEC.LEN_ZERO and DEC.LEN_OK (R90, R91, R92). -/
def Obligations.ReadLenRows : Prop :=
  ∀ (s : State) (b : Byte), s.dec.decState = .readLen →
    (65 ≤ b.toNat → exec (.decLenOver b) s = .next { s with
      dec := { decState := .waitStart, msgType := 0, len := 0, idx := 0, checksumAcc := 0, payload := s.dec.payload }
      out := { events := [.oversize b] } }) ∧
    (b = 0 → exec (.decLenZero b) s = .next { s with
      dec := { s.dec with len := 0, decState := .readChecksum }
      out := {} }) ∧
    (1 ≤ b.toNat → b.toNat ≤ 64 → exec (.decLenOk b) s = .next { s with
      dec := { s.dec with len := b, checksumAcc := s.dec.checksumAcc ^^^ b, idx := 0, decState := .readPayload }
      out := {} })

/-- DEC.PAYLOAD (R93): cell `idx` takes the byte, every other cell reads as before, the registers move as the row says. -/
def Obligations.PayloadRow : Prop :=
  ∀ (s : State) (b : Byte), s.dec.decState = .readPayload → s.dec.idx.toNat < 64 →
    Memory.wf s.dec.payload = true →
    ∃ m : Memory,
      exec (.decPayload b) s = .next { s with
        dec := { s.dec with
          payload := m
          checksumAcc := s.dec.checksumAcc ^^^ b
          idx := s.dec.idx + 1
          decState := if s.dec.idx + 1 = s.dec.len then .readChecksum else .readPayload }
        out := {} } ∧
      Memory.wf m = true ∧ m.read s.dec.idx.toNat = some b ∧
      ∀ a, a ≠ s.dec.idx.toNat → m.read a = s.dec.payload.read a

/-- DEC.CK_OK (R95): the frame of exactly `len` bytes, read before the registers are cleared; DEC.CK_BAD (R96); the buffer
is unchanged. -/
def Obligations.ReadChecksumRows : Prop :=
  ∀ s : State, s.dec.decState = .readChecksum →
    (s.dec.len.toNat ≤ 64 → ∃ p : List Byte,
      exec (.decCkOk s.dec.checksumAcc) s = .next { s with
        dec := { decState := .waitStart, msgType := 0, len := 0, idx := 0, checksumAcc := 0, payload := s.dec.payload }
        out := { frames := [{ typ := s.dec.msgType, payload := p }] } } ∧
      p.length = s.dec.len.toNat ∧ ∀ k, k < s.dec.len.toNat → s.dec.payload.read k = p[k]?) ∧
    ∀ b : Byte, b ≠ s.dec.checksumAcc → exec (.decCkBad b) s = .next { s with
      dec := { decState := .waitStart, msgType := 0, len := 0, idx := 0, checksumAcc := 0, payload := s.dec.payload }
      out := { events := [.checksum b s.dec.checksumAcc] } }

/-- DEC.RESET (R86): from every state, without an event, the buffer not written. -/
def Obligations.DecoderResetOperation : Prop :=
  ∀ s : State, exec .decReset s = .next { s with
    dec := { decState := .waitStart, msgType := 0, len := 0, idx := 0, checksumAcc := 0, payload := s.dec.payload }
    out := {} }

/-- A decoder row invoked where the state and the byte do not select it is refused by name (the model's choice, log 14),
an access to a cell above 63 faults (the model's choice, log 15), and CKSUM of more than 64 bytes is refused (outside the
operand's bound of R111; the model's choice, log 16). -/
def Obligations.RowsStopOutsideTheirDomain : Prop :=
  (∀ (s : State) (i : Instr) (b : Byte), encode i = .byte b →
    selects s.dec.decState s.dec.checksumAcc i = false → exec i s = .refused .notSelected) ∧
  (∀ (s : State) (b : Byte), s.dec.decState = .readPayload → 64 ≤ s.dec.idx.toNat →
    exec (.decPayload b) s = .fault .bufferRange) ∧
  (∀ s : State, s.dec.decState = .readChecksum → 65 ≤ s.dec.len.toNat →
    exec (.decCkOk s.dec.checksumAcc) s = .fault .bufferRange) ∧
  (∀ (s : State) (t : Byte) (p : List Byte), 64 < p.length → exec (.cksum t p) s = .refused .payloadTooLong)

/-! ## What follows from the rows -/

/-- Every byte is a whole operation: it selects a row, the row completes, at most one frame or one event comes out and
never both, nothing but the decoder and the outputs changes, and R97 holds again (R85; R97 and R105, derived). -/
def Obligations.EveryByteCompletes : Prop :=
  ∀ (s : State) (b : Byte) (rest : List HostEvent), admissible s.config = true → decoderOk s.dec →
    s.pending = .invoke (.byte b) :: rest →
    ∃ t, step s = .next t ∧ t = { s with pending := rest, dec := t.dec, out := t.out } ∧ decoderOk t.dec ∧
      t.out.frames.length + t.out.events.length ≤ 1 ∧ t.out.tx = [] ∧ t.out.result = none

/-- Steps that take a byte each fold DecStep over the bytes and give the frames and events of that feeding, in order;
what is pending after the bytes stays pending (R85). -/
def Obligations.ByteStepsFeedTheDecoder : Prop :=
  ∀ (bs : List Byte) (rest : List HostEvent) (s : State) (d : Decoder) (fs : List Frame) (es : List Event),
    admissible s.config = true → s.pending = bs.map (fun b => HostEvent.invoke (.byte b)) ++ rest →
    decFeed s.dec bs = .ok (d, fs, es) →
    ∃ t, runSteps bs.length s = .next t ∧ t = { s with pending := rest, dec := d, out := t.out } ∧
      stepFrames bs.length s = fs ∧ stepEvents bs.length s = es

/-- The accumulator is the running XOR, and at ReadChecksum it is CKSUM of the type and payload (R98, derived). -/
def Obligations.AccumulatorIsRunningXor : Prop :=
  ∀ (d : Decoder) (t n : Byte) (q : List Byte), d.decState = .waitStart → Memory.wf d.payload = true →
    n.toNat ≤ 64 → q.length ≤ n.toNat →
    ∃ d', decFeed d (0xAA :: t :: n :: q) = .ok (d', [], []) ∧
      d'.checksumAcc = q.foldl (· ^^^ ·) (t ^^^ n) ∧
      (q.length = n.toNat → d'.decState = .readChecksum ∧ d'.checksumAcc = checksum t q)

/-- From idle at a start marker the decoder is idle again after exactly 3 bytes if the third exceeds 64, and otherwise
after exactly 4 + n bytes, the last of which ends the frame with one frame or one event (R99, derived). -/
def Obligations.BytesConsumedPerFrame : Prop :=
  ∀ (d : Decoder) (t n : Byte) (q : List Byte), idle d → Memory.wf d.payload = true →
    (64 < n.toNat → ∃ d', decFeed d [0xAA, t, n] = .ok (d', [], [.oversize n]) ∧ idle d') ∧
    (n.toNat ≤ 64 → q.length = n.toNat + 1 →
      (∀ k, 1 ≤ k → k < 4 + n.toNat → ∃ d', decFeed d ((0xAA :: t :: n :: q).take k) = .ok (d', [], []) ∧
        d'.decState ≠ .waitStart) ∧
      ∃ d' fs es, decFeed d (0xAA :: t :: n :: q) = .ok (d', fs, es) ∧ idle d' ∧ fs.length + es.length = 1)

/-- From every state that R97 allows, whatever the bytes, the decoder is idle again within 68 of them (R99, derived). -/
def Obligations.IdleAgainWithin68Bytes : Prop :=
  ∀ (d : Decoder) (bs : List Byte), decoderOk d → 68 ≤ bs.length →
    ∃ k d' fs es, k ≤ 68 ∧ decFeed d (bs.take k) = .ok (d', fs, es) ∧ idle d'

/-- Round trip (R100, derived): every frame of at most 64 payload bytes, fed to an idle decoder, produces exactly itself, on its
last byte, with no event, and leaves the decoder idle. -/
def Obligations.FrameRoundTrip : Prop :=
  ∀ (d : Decoder) (t : Byte) (p : List Byte), idle d → Memory.wf d.payload = true → p.length ≤ 64 →
    ∃ d₁ d₂, decFeed d (frameBytes t p).dropLast = .ok (d₁, [], []) ∧
      decFeed d (frameBytes t p) = .ok (d₂, [{ typ := t, payload := p }], []) ∧ idle d₂ ∧
      Memory.wf d₂.payload = true

/-- Resynchronisation after a wrong checksum byte (R101, derived): one event on the last byte of the corrupted frame, one frame
for the intact one that follows, and nothing else. -/
def Obligations.ResynchronisesAfterBadChecksum : Prop :=
  ∀ (d : Decoder) (t₁ t₂ c : Byte) (p₁ p₂ : List Byte), idle d → Memory.wf d.payload = true →
    p₁.length ≤ 64 → p₂.length ≤ 64 → c ≠ checksum t₁ p₁ →
    ∃ d₁ d₂, decFeed d ((frameBytes t₁ p₁).dropLast ++ [c]) = .ok (d₁, [], [.checksum c (checksum t₁ p₁)]) ∧
      idle d₁ ∧ decFeed d₁ (frameBytes t₂ p₂) = .ok (d₂, [{ typ := t₂, payload := p₂ }], []) ∧ idle d₂

/-- Oversize rejection under the condition it needs (R102, derived): the body holds no start marker. Where it holds one, a frame
may be emitted from inside the body. -/
def Obligations.OversizeFrameSkipped : Prop :=
  ∀ (d : Decoder) (t n t₂ : Byte) (body p₂ : List Byte), idle d → Memory.wf d.payload = true → 64 < n.toNat →
    p₂.length ≤ 64 →
    ∃ d₁, decFeed d [0xAA, t, n] = .ok (d₁, [], [.oversize n]) ∧ idle d₁ ∧
      ((0xAA : Byte) ∉ body → ∃ d₂, decFeed d₁ (body ++ frameBytes t₂ p₂) =
        .ok (d₂, [{ typ := t₂, payload := p₂ }], []) ∧ idle d₂) ∧
      ∃ d₃, decFeed d₁ [0xAA, 0x01, 0x00, 0x01] = .ok (d₃, [{ typ := 0x01, payload := [] }], []) ∧ idle d₃

/-- What the registers and the buffer hold in WaitStart has no effect on any later output (R28, derived). -/
def Obligations.IdleRegistersUnobservable : Prop :=
  ∀ (d₁ d₂ : Decoder) (bs : List Byte), d₁.decState = .waitStart → d₂.decState = .waitStart →
    Memory.wf d₁.payload = true → Memory.wf d₂.payload = true →
    ∃ d₁' d₂' fs es, decFeed d₁ bs = .ok (d₁', fs, es) ∧ decFeed d₂ bs = .ok (d₂', fs, es)

/-- What the checksum catches and what it does not (R114 a, b, derived): for a frame whose start marker and length byte are intact,
changes whose XOR is not zero are caught, changes whose XOR is zero pass as a frame. -/
def Obligations.CorruptionCaughtUnlessItCancels : Prop :=
  ∀ (d : Decoder) (t t' c' : Byte) (p p' : List Byte), idle d → Memory.wf d.payload = true → p.length ≤ 64 →
    p'.length = p.length →
    let diff := (List.zipWith (· ^^^ ·) p p').foldl (· ^^^ ·) ((t ^^^ t') ^^^ (checksum t p ^^^ c'))
    let received := 0xAA :: t' :: BitVec.ofNat 8 p.length :: (p' ++ [c'])
    (diff ≠ 0 → ∃ d' e, decFeed d received = .ok (d', [], [.checksum c' e])) ∧
    (diff = 0 → ∃ d', decFeed d received = .ok (d', [{ typ := t', payload := p' }], []))

/-- The cut of the inbound stream into iterations does not matter (R49, derived): two iterations over the parts end as one over
the whole, in the decoder, the command channel and the bridge's cell, with the same frames and events. -/
def Obligations.CutOfTheStreamDoesNotMatter : Prop :=
  ∀ (s t : State) (a b : List Byte), exec (.commsIter (a ++ b)) s = .next t →
    ∃ t₁ t₂, exec (.commsIter a) s = .next t₁ ∧ exec (.commsIter b) t₁ = .next t₂ ∧
      t₂.dec = t.dec ∧ t₂.cmdCh = t.cmdCh ∧ t₂.latest = t.latest ∧
      t.out.frames = t₁.out.frames ++ t₂.out.frames ∧ t.out.events = t₁.out.events ++ t₂.out.events

/-! ## Checksum, encoder, payloads -/

/-- CKSUM (R111): the fold from type ^ length, equal to the type on the empty payload, the same for every order of the
payload bytes. -/
def Obligations.ChecksumValue : Prop :=
  ∀ (s : State) (t : Byte) (p : List Byte),
    (p.length ≤ 64 → exec (.cksum t p) s = .next { s with
      out := { result := some (.byte (p.foldl (· ^^^ ·) (t ^^^ BitVec.ofNat 8 p.length))) } }) ∧
    checksum t [] = t ∧ (∀ q, p.Perm q → checksum t p = checksum t q)

/-- ENC.FRAME (R112), and its refusal above 64 bytes. -/
def Obligations.EncoderLayout : Prop :=
  ∀ (s : State) (t : Byte) (p : List Byte),
    (p.length ≤ 64 → exec (.encFrame t p) s = .next { s with
      out := { result := some (.bytes ([0xAA, t, BitVec.ofNat 8 p.length] ++ p ++ [checksum t p])) } }) ∧
    (64 < p.length → exec (.encFrame t p) s = .refused .payloadTooLong)

/-- TLM.PACK (R115) and CMD.PACK (R118): the bytes, offset 0 first. For a power above 100, outside the record of R117, that
the byte is packed as it stands is the model's choice (log 30). -/
def Obligations.PackLayouts : Prop :=
  ∀ (s : State) (r : TelemetryRecord) (v : Word),
    (∃ st : Byte, (r.state = .normal → st = 0) ∧ (r.state = .warning → st = 1) ∧ (r.state = .scram → st = 2) ∧
      exec (.tlmPack r) s = .next { s with out := { result := some (.bytes
        [r.sampleId.extractLsb' 0 8, r.sampleId.extractLsb' 8 8, r.sampleId.extractLsb' 16 8,
         r.sampleId.extractLsb' 24 8, r.temperature.extractLsb' 0 8, r.temperature.extractLsb' 8 8,
         r.temperature.extractLsb' 16 8, r.temperature.extractLsb' 24 8, r.accelMag.extractLsb' 0 8,
         r.accelMag.extractLsb' 8 8, r.accelMag.extractLsb' 16 8, r.accelMag.extractLsb' 24 8, st, r.power]) } }) ∧
    exec (.cmdPack .scram) s = .next { s with out := { result := some (.bytes [0x01]) } } ∧
    exec (.cmdPack .resetNormal) s = .next { s with out := { result := some (.bytes [0x02]) } } ∧
    exec (.cmdPack (.setPower v)) s = .next { s with out := { result := some (.bytes
      [0x03, v.extractLsb' 0 8, v.extractLsb' 8 8, v.extractLsb' 16 8, v.extractLsb' 24 8]) } }

/-- TLM.UNPACK (R116): dropped when short, or with a reserved state or power byte; else the record of the first 14 bytes.
For payloads above 64 bytes, which no frame carries, it is the model's choice (log 27). -/
def Obligations.TelemetryUnpack : Prop :=
  ∀ (s : State) (p : List Byte),
    (p.length < 14 ∨ 3 ≤ (p.getD 12 0).toNat ∨ 101 ≤ (p.getD 13 0).toNat →
      exec (.tlmUnpack p) s = .next { s with
        out := { result := some .dropped, events := [.tlmMalformed p.length] } }) ∧
    (14 ≤ p.length → (p.getD 12 0).toNat ≤ 2 → (p.getD 13 0).toNat ≤ 100 →
      ∃ r : TelemetryRecord, exec (.tlmUnpack p) s = .next { s with out := { result := some (.record r) } } ∧
        r.sampleId = le32 (p.getD 0 0) (p.getD 1 0) (p.getD 2 0) (p.getD 3 0) ∧
        r.temperature = le32 (p.getD 4 0) (p.getD 5 0) (p.getD 6 0) (p.getD 7 0) ∧
        r.accelMag = le32 (p.getD 8 0) (p.getD 9 0) (p.getD 10 0) (p.getD 11 0) ∧
        (p.getD 12 0 = 0 → r.state = .normal) ∧ (p.getD 12 0 = 1 → r.state = .warning) ∧
        (p.getD 12 0 = 2 → r.state = .scram) ∧ r.power = p.getD 13 0)

/-- CMD.UNPACK (R119): the tail is ignored, a short or unknown command is dropped with its event. For payloads above 64
bytes, which no frame carries, it is the model's choice (log 27). -/
def Obligations.CommandUnpack : Prop :=
  ∀ (s : State) (id v₀ v₁ v₂ v₃ : Byte) (tail : List Byte),
    exec (.cmdUnpack []) s = .next { s with out := { result := some .dropped, events := [.cmdUndersize 0] } } ∧
    exec (.cmdUnpack (0x01 :: tail)) s = .next { s with out := { result := some (.command .scram) } } ∧
    exec (.cmdUnpack (0x02 :: tail)) s = .next { s with out := { result := some (.command .resetNormal) } } ∧
    exec (.cmdUnpack (0x03 :: v₀ :: v₁ :: v₂ :: v₃ :: tail)) s =
      .next { s with out := { result := some (.command (.setPower (le32 v₀ v₁ v₂ v₃))) } } ∧
    (tail.length < 4 → exec (.cmdUnpack (0x03 :: tail)) s = .next { s with
      out := { result := some .dropped, events := [.cmdUndersize (tail.length + 1)] } }) ∧
    (id ≠ 0x01 → id ≠ 0x02 → id ≠ 0x03 → exec (.cmdUnpack (id :: tail)) s = .next { s with
      out := { result := some .dropped, events := [.cmdUnknown id] } })

/-- `le32` is the number R11 and R40 give, so a multi-byte field is little-endian, and `bytes_le32` is its inverse. -/
def Obligations.LittleEndianFields : Prop :=
  ∀ (b₀ b₁ b₂ b₃ : Byte) (u : Word),
    (le32 b₀ b₁ b₂ b₃).toNat = b₀.toNat + 256 * b₁.toNat + 65536 * b₂.toNat + 16777216 * b₃.toNat ∧
    bytesLe32 (le32 b₀ b₁ b₂ b₃) = [b₀, b₁, b₂, b₃] ∧ le32At (bytesLe32 u) 0 = u

/-- The payload layer round-trips (R121, derived): every command; every record with a power of at most 100, floats by pattern. -/
def Obligations.PayloadLayerRoundTrips : Prop :=
  ∀ (s : State) (c : Command) (r : TelemetryRecord),
    (∃ p, exec (.cmdPack c) s = .next { s with out := { result := some (.bytes p) } } ∧
      exec (.cmdUnpack p) s = .next { s with out := { result := some (.command c) } }) ∧
    (r.power.toNat ≤ 100 → ∃ p, p.length = 14 ∧
      exec (.tlmPack r) s = .next { s with out := { result := some (.bytes p) } } ∧
      exec (.tlmUnpack p) s = .next { s with out := { result := some (.record r) } })

/-! ## The reactor -/

/-- The three commands act at once and without condition (R131 to R134); the power set is clamped to 0..100. -/
def Obligations.CommandsActUnconditionally : Prop :=
  ∀ (s : State) (v : Word),
    exec .rsmCmdScram s = .next { s with reactor := { state := .scram, power := 0 }, out := {} } ∧
    exec .rsmCmdResetNormal s = .next { s with reactor := { state := .normal, power := 50 }, out := {} } ∧
    ∃ p : Byte, exec (.rsmCmdSetPower v) s =
        .next { s with reactor := { state := s.reactor.state, power := p }, out := {} } ∧
      (p.toNat : Int) = max 0 (min v.toInt 100)

/-- RSM.EVAL: the seven rows (R135 to R142), the conditions written out. -/
def Obligations.EvaluationRows : Prop :=
  ∀ (s : State) (temp accel : Word) (crit warn clear : Bool),
    crit = (f32Ge temp s.config.tempCritical || f32Gt accel 0x40000000) →
    warn = (f32Ge temp s.config.tempWarning || f32Gt accel 0x3F4CCCCD) →
    clear = f32Lt temp (tempClear s.config) →
    (s.reactor.state = .normal → crit = true →
      exec (.rsmEval temp accel) s = .next { s with reactor := { state := .scram, power := 0 }, out := {} }) ∧
    (s.reactor.state = .normal → crit = false → warn = true →
      exec (.rsmEval temp accel) s =
        .next { s with reactor := { state := .warning, power := s.reactor.power }, out := {} }) ∧
    (s.reactor.state = .normal → crit = false → warn = false →
      exec (.rsmEval temp accel) s = .next { s with out := {} }) ∧
    (s.reactor.state = .warning → crit = true →
      exec (.rsmEval temp accel) s = .next { s with reactor := { state := .scram, power := 0 }, out := {} }) ∧
    (s.reactor.state = .warning → crit = false → clear = true →
      exec (.rsmEval temp accel) s =
        .next { s with reactor := { state := .normal, power := s.reactor.power }, out := {} }) ∧
    (s.reactor.state = .warning → crit = false → clear = false →
      exec (.rsmEval temp accel) s = .next { s with out := {} }) ∧
    (s.reactor.state = .scram →
      exec (.rsmEval temp accel) s = .next { s with reactor := { state := .scram, power := 0 }, out := {} })

/-- binary32 (log 19): the comparisons of R144 are the exact order of the values, -0 equal to +0, infinities at the ends,
false with a NaN; and TEMP_CLEAR = fl32(TEMP_WARNING - 2.0) (R9, R135, D11): the finite value nearest the exact difference,
and where another value is as near, the one with an even pattern. -/
def Obligations.BinaryComparisonsAndTempClear : Prop :=
  (∀ a b : Word,
    (f32IsFinite a = true → f32IsFinite b = true →
      (f32Lt a b = true ↔ f32Value a < f32Value b) ∧ (f32Gt a b = true ↔ f32Value b < f32Value a) ∧
      (f32Ge a b = true ↔ f32Value b ≤ f32Value a)) ∧
    (f32IsFinite a = true →
      (f32Lt a 0x7F800000 = true ∧ f32Gt a 0x7F800000 = false ∧ f32Ge a 0x7F800000 = false) ∧
      (f32Lt 0x7F800000 a = false ∧ f32Gt 0x7F800000 a = true ∧ f32Ge 0x7F800000 a = true) ∧
      (f32Lt a 0xFF800000 = false ∧ f32Gt a 0xFF800000 = true ∧ f32Ge a 0xFF800000 = true) ∧
      (f32Lt 0xFF800000 a = true ∧ f32Gt 0xFF800000 a = false ∧ f32Ge 0xFF800000 a = false)) ∧
    (f32IsNaN a = true ∨ f32IsNaN b = true → f32Lt a b = false ∧ f32Gt a b = false ∧ f32Ge a b = false)) ∧
  ∀ c : Config, f32IsFinite c.tempWarning = true →
    f32IsFinite (tempClear c) = true ∧
    ∀ u : Word, f32IsFinite u = true →
      |f32Value (tempClear c) - (f32Value c.tempWarning - 2)| ≤ |f32Value u - (f32Value c.tempWarning - 2)| ∧
      (|f32Value u - (f32Value c.tempWarning - 2)| = |f32Value (tempClear c) - (f32Value c.tempWarning - 2)| →
        f32Value u = f32Value (tempClear c) ∨ (tempClear c).toNat % 2 = 0)

/-- The fail-safe dominates (R145, R148): a failed read gives (Scram, 0) from every state, with every command list and
every sample; the commands are consumed. -/
def Obligations.FailsafeDominates : Prop :=
  ∀ (s : State) (cmds : List Command) (temp accel : Word),
    exec .rsmFailsafe s =
      .next { s with reactor := { state := .scram, power := 0 }, out := { events := [.sensorFail] } } ∧
    exec (.rsmStep cmds temp accel false) s =
      .next { s with reactor := { state := .scram, power := 0 }, out := { events := [.sensorFail] } } ∧
    ∃ t, exec (.ctrlStep temp accel false) s = .next t ∧ t.reactor = { state := .scram, power := 0 } ∧ t.cmdCh = []

/-- RSM.STEP is RSM.FAILSAFE where the sensor failed, and else the commands in order and then one evaluation (R146), each
as the operation of its own row. -/
def Obligations.ReactorStepIsComposition : Prop :=
  ∀ (s : State) (cmds : List Command) (temp accel : Word),
    exec (.rsmStep cmds temp accel false) s = exec .rsmFailsafe s ∧
    ∃ t, exec (.rsmStep cmds temp accel true) s = .next t ∧
      execAll (cmds.map commandInstr ++ [.rsmEval temp accel]) s = .next t

/-- Batches (R155, derived): the state is set by the last Scram or ResetNormal, the power by the last command. -/
def Obligations.BatchLastWriterWins : Prop :=
  ∀ (r : Reactor) (before after : List Command) (c : Command),
    (r.applyAll []) = r ∧
    (r.applyAll (before ++ [c])).power = (r.apply c).power ∧
    ((∀ x ∈ after, ∃ v, x = .setPower v) →
      (r.applyAll after).state = r.state ∧
      (r.applyAll (before ++ .scram :: after)).state = .scram ∧
      (r.applyAll (before ++ .resetNormal :: after)).state = .normal)

/-- Only ResetNormal leaves Scram (R142; R153, derived): a control step from Scram whose drained commands hold none ends in
(Scram, 0). -/
def Obligations.OnlyResetNormalLeavesScram : Prop :=
  ∀ (s : State) (temp accel : Word) (ok : Bool), s.reactor.state = .scram → .resetNormal ∉ s.cmdCh →
    ∃ t, exec (.ctrlStep temp accel ok) s = .next t ∧ t.reactor = { state := .scram, power := 0 }

/-- Every reactor step and every control step ends with power at most 100 and, in Scram, power 0 (R152, derived). -/
def Obligations.ReactorInvariantsHoldAfterStep : Prop :=
  ∀ (s : State) (cmds : List Command) (temp accel : Word) (ok : Bool), s.reactor.power ≤ 100 →
    (∃ t, exec (.rsmStep cmds temp accel ok) s = .next t ∧ t.reactor.power ≤ 100 ∧ scramPowerZero t.reactor) ∧
    (∃ t, exec (.ctrlStep temp accel ok) s = .next t ∧ t.reactor.power ≤ 100 ∧ scramPowerZero t.reactor)

/-- A ResetNormal is evaluated in the same step (R143, R150): the step ends where the Normal rows send the sample. -/
def Obligations.ResetNormalIsReevaluated : Prop :=
  ∀ (s : State) (temp accel : Word), ∃ t,
    exec (.rsmStep [.resetNormal] temp accel true) s = .next t ∧
    (isCrit s.config temp accel = true → t.reactor = { state := .scram, power := 0 }) ∧
    (isCrit s.config temp accel = false → isWarn s.config temp accel = true →
      t.reactor = { state := .warning, power := 50 }) ∧
    (isCrit s.config temp accel = false → isWarn s.config temp accel = false →
      t.reactor = { state := .normal, power := 50 })

/-- Hysteresis with the source's example thresholds (R149, derived): from Warning, 44.0 stays and 42.9 goes to Normal, for every
acceleration that is not above 2.0. -/
def Obligations.HysteresisExample : Prop :=
  ∀ (s : State) (accel : Word), s.config.tempWarning = 0x42340000 → s.config.tempCritical = 0x42480000 →
    s.reactor.state = .warning → f32Gt accel 0x40000000 = false →
    exec (.rsmStep [] 0x42300000 accel true) s = .next { s with out := {} } ∧
    exec (.rsmStep [] 0x422B999A accel true) s =
      .next { s with reactor := { state := .normal, power := s.reactor.power }, out := {} }

/-- Acceleration between the quake thresholds alternates Normal and Warning while the temperature is below TEMP_CLEAR
(R154, derived): two steps with such a sample return to Normal through Warning. -/
def Obligations.CoolQuakeAlternates : Prop :=
  ∀ (s : State) (temp accel : Word), s.reactor.state = .normal → isCrit s.config temp accel = false →
    f32Gt accel 0x3F4CCCCD = true → f32Lt temp (tempClear s.config) = true →
    ∃ t u, exec (.rsmStep [] temp accel true) s = .next t ∧
      t.reactor = { state := .warning, power := s.reactor.power } ∧
      exec (.rsmStep [] temp accel true) t = .next u ∧ u.reactor = s.reactor

/-! ## The control step -/

/-- CTRL.STEP (R160 to R165, R52): one reactor step on the drained commands, one indicator call with the resulting state,
the record with the state after the step and the counter before it, sent or dropped; nothing else changes. That a failed
sensor and a full channel give two events in this order, as R160 lists them and R181 denies, is the model's choice (log 18). -/
def Obligations.ControlStepEffects : Prop :=
  ∀ (s : State) (temp accel : Word) (ok : Bool), ∃ r t : State, ∃ rec : TelemetryRecord,
    exec (.rsmStep s.cmdCh temp accel ok) s = .next r ∧ exec (.ctrlStep temp accel ok) s = .next t ∧
    rec = { sampleId := s.sampleId, temperature := temp, accelMag := accel, state := r.reactor.state,
            power := r.reactor.power } ∧
    (s.tlmCh.length < s.config.tlmChCap → t = { s with
      reactor := r.reactor, cmdCh := [], sampleId := s.sampleId + 1, tlmCh := s.tlmCh ++ [rec]
      out := { events := r.out.events, indicator := [r.reactor.state], record := some rec } }) ∧
    (s.config.tlmChCap ≤ s.tlmCh.length → t = { s with
      reactor := r.reactor, cmdCh := [], sampleId := s.sampleId + 1
      out := { events := r.out.events ++ [.tlmChFull s.sampleId], indicator := [r.reactor.state],
               record := some rec } })

/-- `sample_id` advances by one in every control step whatever happens in it, and the record of a step carries the value
before it, so that the k-th step from a counter n carries n + k mod 2^32 (R31, R163). -/
def Obligations.SampleIdCountsControlSteps : Prop :=
  ∀ (inputs : List (Word × Word × Bool)) (temp accel : Word) (ok : Bool) (s : State), ∃ t u,
    execAll (inputs.map fun x => .ctrlStep x.1 x.2.1 x.2.2) s = .next t ∧
    t.sampleId.toNat = (s.sampleId.toNat + inputs.length) % 2 ^ 32 ∧
    exec (.ctrlStep temp accel ok) t = .next u ∧ ∃ rec ∈ u.out.record, rec.sampleId = t.sampleId

/-! ## The comms iteration and the frame rows -/

/-- COMMS.ITER, byte by byte (R166 items 2 to 4, R168, R169, R39): it completes from every decoder state R97 allows,
whatever bytes arrive; decoder and emitted frames are those of feeding the bytes, and every event of the feeding is among
its events, in order; no register of the control agent is touched. One byte more runs DecStep once more, logs its event, and
handles its frame, and nothing else: with no bytes it is the outbound drain alone (OutboundFramesOldestFirst), so that the
channel, the cell and the events are settled for every byte string. -/
def Obligations.CommsIterationHandlesEveryByte : Prop :=
  ∀ (s : State) (bytes : List Byte), decoderOk s.dec →
    ∃ t es, exec (.commsIter bytes) s = .next t ∧ decoderOk t.dec ∧
    decFeed s.dec bytes = .ok (t.dec, t.out.frames, es) ∧ es.Sublist t.out.events ∧
    t = { s with dec := t.dec, tlmCh := t.tlmCh, cmdCh := t.cmdCh, latest := t.latest, upstream := t.upstream,
                 out := t.out } ∧
    ∀ b : Byte, ∃ r u, decStep t.dec b = .ok r ∧ exec (.commsIter (bytes ++ [b])) s = .next u ∧
      let a : State := { t with
        dec := r.dec
        out := { t.out with frames := t.out.frames ++ r.frame.toList, events := t.out.events ++ r.event.toList } }
      (r.frame = none → u = a) ∧ ∀ f, r.frame = some f → frameHandled f a u

/-- Outbound (R167, R169): with no bytes to read, the side's channel is drained and one frame written for each item,
oldest first. -/
def Obligations.OutboundFramesOldestFirst : Prop :=
  ∀ s : State,
    (s.side = .reactor → exec (.commsIter []) s = .next { s with
      tlmCh := []
      out := { tx := (s.tlmCh.map fun r => frameBytes 0x01 (telemetryBytes r)).flatten } }) ∧
    (s.side = .bridge → exec (.commsIter []) s = .next { s with
      upstream := []
      out := { tx := (s.upstream.map fun c => frameBytes 0x10 (commandBytes c)).flatten } })

/-- A command packed, framed and sent over an intact link to an idle reactor side is pushed to the command channel (R121,
R166), or dropped with EV_CMD_CH_FULL where the channel is full (R53). -/
def Obligations.CommandDeliveredEndToEnd : Prop :=
  ∀ (s : State) (c : Command), s.side = .reactor → idle s.dec → Memory.wf s.dec.payload = true →
    ∃ t, exec (.commsIter (frameBytes 0x10 (commandBytes c))) s = .next t ∧ idle t.dec ∧
      t.out.frames = [{ typ := 0x10, payload := commandBytes c }] ∧
      (s.cmdCh.length < s.config.cmdChCap → t.cmdCh = s.cmdCh ++ [c] ∧ t.out.events = []) ∧
      (s.config.cmdChCap ≤ s.cmdCh.length → t.cmdCh = s.cmdCh ∧ t.out.events = [.cmdChFull c])

/-- The telemetry a reactor side writes, received by an idle bridge, leaves the newest record in the cell (R54, R115,
R116, R167, R169). -/
def Obligations.TelemetryDeliveredEndToEnd : Prop :=
  ∀ (s u : State) (older : List TelemetryRecord) (r : TelemetryRecord),
    s.side = .reactor → s.tlmCh = older ++ [r] → (∀ x ∈ s.tlmCh, x.power ≤ 100) →
    u.side = .bridge → idle u.dec → Memory.wf u.dec.payload = true →
    ∃ t v, exec (.commsIter []) s = .next t ∧ exec (.commsIter t.out.tx) u = .next v ∧
      v.latest = some r ∧ v.out.events = [] ∧ idle v.dec

/-- SCRAM, RESET_NORMAL and SET_POWER arriving at an idle decoder (R53, R71, R119, R166, R169): on the reactor side the
command is pushed, or dropped with EV_CMD_CH_FULL where the channel is full; a bridge discards the frame. The payload's
bytes go to the first cells, every other cell reads as before, and nothing else changes. -/
def Obligations.NamedCommandFrames : Prop :=
  ∀ (s : State) (v : Word) (i : Instr) (c : Command),
    (i = .scram ∧ c = .scram) ∨ (i = .resetNormal ∧ c = .resetNormal) ∨ (i = .setPower v ∧ c = .setPower v) →
    idle s.dec → Memory.wf s.dec.payload = true →
    ∃ m : Memory,
      (s.side = .reactor → s.cmdCh.length < s.config.cmdChCap → exec i s = .next { s with
        dec := { s.dec with payload := m }
        cmdCh := s.cmdCh ++ [c]
        out := { frames := [{ typ := 0x10, payload := commandBytes c }] } }) ∧
      (s.side = .reactor → s.config.cmdChCap ≤ s.cmdCh.length → exec i s = .next { s with
        dec := { s.dec with payload := m }
        out := { frames := [{ typ := 0x10, payload := commandBytes c }], events := [.cmdChFull c] } }) ∧
      (s.side = .bridge → exec i s = .next { s with
        dec := { s.dec with payload := m }
        out := { frames := [{ typ := 0x10, payload := commandBytes c }], events := [.unknownType 0x10] } }) ∧
      (∀ k, k < (commandBytes c).length → m.read k = (commandBytes c)[k]?) ∧
      ∀ a, (commandBytes c).length ≤ a → m.read a = s.dec.payload.read a

/-- A SCRAM frame, then a control step (R172, R132, R142): the step ends in (Scram, 0) whatever the state, the commands
already queued, and the sample. That the SCRAM row is an arrival, which queues the command for CTRL.STEP, is the model's
reading (log 11). -/
def Obligations.ScramFrameScramsNextControlStep : Prop :=
  ∀ (s : State) (temp accel : Word) (ok : Bool), s.side = .reactor → idle s.dec →
    Memory.wf s.dec.payload = true → s.cmdCh.length < s.config.cmdChCap →
    ∃ t, execAll [.scram, .ctrlStep temp accel ok] s = .next t ∧ t.reactor = { state := .scram, power := 0 } ∧
      t.cmdCh = []

/-- Every frame row completes from every decoder state R97 allows: its bytes are fed to the decoder as they stand, the
frames that come out are the operation's, the events of the feeding are among its events in order, and no register of the
control agent is touched (R39, R85, R104); it ends as COMMS.ITER over the same bytes does (R166), but for what that sends
(the model's reading of a frame row, log 11). Above 64 payload bytes FRAME is refused (U1; log 16). -/
def Obligations.AnyFrameCompletes : Prop :=
  ∀ (s : State) (i : Instr) (bytes : List Byte), encode i = .frame bytes →
    (i.wellFormed = true → decoderOk s.dec → ∃ u v es, exec i s = .next u ∧ decoderOk u.dec ∧
      decFeed s.dec bytes = .ok (u.dec, u.out.frames, es) ∧ es.Sublist u.out.events ∧
      exec (.commsIter bytes) s = .next v ∧
      u = { v with tlmCh := s.tlmCh, upstream := s.upstream, out := { v.out with tx := [] } } ∧
      u = { s with dec := u.dec, cmdCh := u.cmdCh, latest := u.latest, out := u.out }) ∧
    (∀ t p, i = .frame t p → 64 < p.length → exec i s = .refused .payloadTooLong)

/-- Frames dropped above the decoder, on an idle decoder, changing neither channel, cell nor reactor: a type the side does
not recognise, with EV_UNKNOWN_TYPE (R74, R168, R169); on the reactor side a Command payload that is no command, with the
event of CMD.UNPACK (R76, R77, R166); on the bridge side a Telemetry payload that is no record, with EV_TLM_MALFORMED
(R79, R116, R169). That a frame row is an arrival dispatched by type is the model's reading (log 11). -/
def Obligations.FramesDroppedAboveTheDecoder : Prop :=
  ∀ (s : State) (t : Byte) (p : List Byte), idle s.dec → Memory.wf s.dec.payload = true → p.length ≤ 64 →
    (t ≠ recognised s.side →
      ∃ u, exec (.frame t p) s = .next u ∧ u = { s with dec := u.dec, out := u.out } ∧ idle u.dec ∧
        u.out = { frames := [{ typ := t, payload := p }], events := [.unknownType t] }) ∧
    (∀ e : Event, s.side = .reactor → unpackCommand p = .error e →
      ∃ u, exec (.frame 0x10 p) s = .next u ∧ u = { s with dec := u.dec, out := u.out } ∧ idle u.dec ∧
        u.out = { frames := [{ typ := 0x10, payload := p }], events := [e] }) ∧
    (∀ e : Event, s.side = .bridge → unpackTelemetry p = .error e →
      e = .tlmMalformed p.length ∧
      ∃ u, exec (.frame 0x01 p) s = .next u ∧ u = { s with dec := u.dec, out := u.out } ∧ idle u.dec ∧
        u.out = { frames := [{ typ := 0x01, payload := p }], events := [e] })

/-- TELEMETRY (R66, R74, R169): the record reaches an idle bridge's cell; an idle reactor side discards the frame. That the
row is an arrival at the side's decoder, dispatched by type, is the model's reading (log 11). -/
def Obligations.TelemetryFrame : Prop :=
  ∀ (s : State) (r : TelemetryRecord), idle s.dec → Memory.wf s.dec.payload = true → r.power ≤ 100 →
    ∃ u, exec (.telemetry r) s = .next u ∧ idle u.dec ∧
      u.out.frames = [{ typ := 0x01, payload := telemetryBytes r }] ∧
      (s.side = .bridge → u = { s with dec := u.dec, out := u.out, latest := some r } ∧ u.out.events = []) ∧
      (s.side = .reactor → u = { s with dec := u.dec, out := u.out } ∧ u.out.events = [.unknownType 0x01])

/-! ## Reset and the bridge's cell -/

/-- Power-on reset (R38, R210), for every admissible value of the OPEN parameters; it satisfies the invariants. -/
def Obligations.PowerOnReset : Prop :=
  ∀ (s : State) (rest : List HostEvent), admissible s.config = true → s.pending = .powerOn :: rest →
    ∃ t, step s = .next t ∧ idle t.dec ∧ t.dec.payload = s.config.payloadInit ∧
      t.reactor = { state := s.config.resetState, power := s.config.resetPower } ∧ t.sampleId = 0 ∧
      t.tlmCh = [] ∧ t.cmdCh = [] ∧ t.latest = none ∧ t.config = s.config ∧ t.side = s.side ∧ t.pending = rest ∧
      stateOk t ∧ scramPowerZero t.reactor

/-- The machine after reset satisfies the invariants, with the values the spec gives (R38) and those the model names
(log 5, 6, 7, 9: the model's choices). -/
def Obligations.ResetStateSatisfiesInvariants : Prop :=
  stateOk State.reset ∧ scramPowerZero State.reset.reactor ∧ idle State.reset.dec ∧ State.reset.sampleId = 0 ∧
  State.reset.tlmCh = [] ∧ State.reset.cmdCh = []

/-- The bridge's cell (R54): taking returns and empties it; the upstream side's commands queue up (R169, log 10). -/
def Obligations.BridgeHostEvents : Prop :=
  ∀ (s : State) (rest : List HostEvent) (r : TelemetryRecord) (c : Command), admissible s.config = true →
    (s.pending = .takeLatest :: rest → s.latest = some r → step s =
      .next { s with pending := rest, latest := none, out := { result := some (.record r) } }) ∧
    (s.pending = .takeLatest :: rest → s.latest = none → step s =
      .next { s with pending := rest, out := { result := some .dropped } }) ∧
    (s.pending = .upstream c :: rest → step s =
      .next { s with pending := rest, upstream := s.upstream ++ [c], out := {} })

/-! ## The whole machine -/

/-- Ownership (R39, R196): no operation outside the control agent's writes the reactor or `sample_id`; CTRL.STEP alone
advances `sample_id`; no operation of the control agent and no pure function writes the decoder; a pure function writes
nothing but its outputs. -/
def Obligations.OwnershipOfState : Prop :=
  ∀ (i : Instr) (s t : State), exec i s = .next t →
    (ofControlAgent i = false → t.reactor = s.reactor ∧ t.sampleId = s.sampleId) ∧
    (ofControlAgent i = true → t.dec = s.dec ∧ t.latest = s.latest) ∧
    ((∀ temp accel ok, i ≠ .ctrlStep temp accel ok) → t.sampleId = s.sampleId) ∧
    (isPure i = true → t = { s with out := t.out })

/-- Every step, from every state: it writes neither the constants nor the side (R32), and it keeps the invariants: R97,
power at most 100 (R19), the channels within their capacities (R52, R53), records with legal powers (R117). -/
def Obligations.EveryStepKeepsInvariants : Prop :=
  ∀ s t : State, step s = .next t → t.config = s.config ∧ t.side = s.side ∧ (stateOk s → stateOk t)

/-- In Scram the power is 0 after every step but a bare RSM.CMD_SET_POWER, which is only ever a part of a reactor step
(R19, R152). -/
def Obligations.ScramMeansPowerZero : Prop :=
  ∀ s t : State, stateOk s → scramPowerZero s.reactor →
    (∀ v rest w, s.pending = .invoke v :: rest →
      decode s.dec.decState s.dec.checksumAcc v ≠ .ok (.rsmCmdSetPower w)) →
    step s = .next t → scramPowerZero t.reactor

/-- Nothing stops the machine (R180): from every state with the invariants, a step answers a next state unless the
operation invoked is ill formed (a payload above 64 bytes given to CKSUM or ENC.FRAME, U1). -/
def Obligations.NothingIsFatal : Prop :=
  ∀ s : State, stateOk s →
    (∀ v rest i, s.pending = .invoke v :: rest → decode s.dec.decState s.dec.checksumAcc v = .ok i →
      i.wellFormed = true) →
    ∃ t, step s = .next t
end

