-- ==== Sys2Proof/Laws/Binary32.lean ====
section
/-! SUPPORT. binary32 patterns: their values in units of 2^-149, and that `fl32` is the nearest pattern, ties to even. -/

namespace Sys2Proof.Machine

/-! ## Magnitudes -/

/-- The magnitude that an exponent-and-fraction number stands for, in units of 2^-149. -/
def magUnits (m : Nat) : Nat := if m / 2 ^ 23 = 0 then m % 2 ^ 23 else (2 ^ 23 + m % 2 ^ 23) * 2 ^ (m / 2 ^ 23 - 1)

theorem f32MagUnits_eq (u : Word) : f32MagUnits u = magUnits (f32Mag u) := rfl

/-- Below 2^24 a magnitude is its own number. -/
theorem magUnits_small {m : Nat} (h : m < 2 ^ 24) : magUnits m = m := by
  unfold magUnits
  split
  · omega
  · have : m / 2 ^ 23 - 1 = 0 := by omega
    rw [this]; omega

/-- The magnitude with exponent field `e + 1` and a significand of 24 bits, or the first of the next exponent. -/
theorem magUnits_normal {e q : Nat} (h1 : 2 ^ 23 ≤ q) (h2 : q ≤ 2 ^ 24) : magUnits (e * 2 ^ 23 + q) = q * 2 ^ e := by
  have hne : (e * 2 ^ 23 + q) / 2 ^ 23 ≠ 0 := by omega
  unfold magUnits
  rw [if_neg hne]
  by_cases hq : q = 2 ^ 24
  · have e1 : (e * 2 ^ 23 + q) / 2 ^ 23 - 1 = e + 1 := by omega
    have e2 : (e * 2 ^ 23 + q) % 2 ^ 23 = 0 := by omega
    rw [e1, e2, hq, Nat.pow_succ]; ring
  · have e1 : (e * 2 ^ 23 + q) / 2 ^ 23 - 1 = e := by omega
    have e2 : (e * 2 ^ 23 + q) % 2 ^ 23 = q - 2 ^ 23 := by omega
    have e3 : 2 ^ 23 + (q - 2 ^ 23) = q := by omega
    rw [e1, e2, e3]

/-- Larger numbers stand for larger magnitudes. -/
theorem magUnits_strictMono : StrictMono magUnits := by
  apply strictMono_nat_of_lt_succ
  intro m
  by_cases hm : m + 1 < 2 ^ 24
  · rw [magUnits_small hm, magUnits_small (by omega)]; omega
  · obtain ⟨e, q, rfl, h1, h2⟩ : ∃ e q, m = e * 2 ^ 23 + q ∧ 2 ^ 23 ≤ q ∧ q < 2 ^ 24 :=
      ⟨m / 2 ^ 23 - 1, m % 2 ^ 23 + 2 ^ 23, by omega, by omega, by omega⟩
    rw [magUnits_normal h1 (by omega), Nat.add_assoc, magUnits_normal (by omega) (by omega)]
    exact Nat.mul_lt_mul_of_pos_right (by omega) (by positivity)

/-! ## Rounding -/

/-- What rounding a magnitude can do, while it stays finite: no magnitude is nearer, and where another is as near, the
result is even. -/
theorem f32RoundMag_nearest {n : Nat} (hfin : f32RoundMag n < 0x7F800000) (m : Nat) :
    |(magUnits (f32RoundMag n) : Int) - n| ≤ |(magUnits m : Int) - n| ∧
    (|(magUnits m : Int) - n| = |(magUnits (f32RoundMag n) : Int) - n| →
      magUnits m = magUnits (f32RoundMag n) ∨ f32RoundMag n % 2 = 0) := by
  by_cases hn : n < 2 ^ 24
  · have hr : f32RoundMag n = n := by unfold f32RoundMag; rw [if_pos hn]
    rw [hr, magUnits_small hn]
    constructor
    · rw [sub_self, abs_zero]; exact abs_nonneg _
    · intro h
      rw [sub_self, abs_zero, abs_eq_zero] at h
      left; omega
  · obtain ⟨sh, hsh⟩ : ∃ sh, Nat.log2 n - 23 = sh + 1 := by
      have : 24 ≤ Nat.log2 n := (Nat.le_log2 (by omega)).mpr (by omega)
      exact ⟨Nat.log2 n - 24, by omega⟩
    have hlo : 2 ^ 23 * 2 ^ (sh + 1) ≤ n := by
      rw [← Nat.pow_add]
      have := Nat.log2_self_le (n := n) (by omega)
      rwa [show 23 + (sh + 1) = Nat.log2 n by omega]
    have hhi : n < 2 ^ 24 * 2 ^ (sh + 1) := by
      rw [← Nat.pow_add]
      have := Nat.lt_log2_self (n := n)
      rwa [show 24 + (sh + 1) = Nat.log2 n + 1 by omega]
    have hp : 0 < 2 ^ sh := by positivity
    have hdm := Nat.div_add_mod n (2 ^ (sh + 1))
    have hrl := Nat.mod_lt n (show 0 < 2 ^ (sh + 1) by positivity)
    have hq1 : 2 ^ 23 ≤ n / 2 ^ (sh + 1) := (Nat.le_div_iff_mul_le (by positivity)).mpr hlo
    have hq2 : n / 2 ^ (sh + 1) < 2 ^ 24 := (Nat.div_lt_iff_lt_mul (by positivity)).mpr hhi
    have hR : f32RoundMag n = (sh + 1) * 2 ^ 23 + n / 2 ^ (sh + 1) ∧
          (n % 2 ^ (sh + 1) < 2 ^ sh ∨ n % 2 ^ (sh + 1) = 2 ^ sh ∧ n / 2 ^ (sh + 1) % 2 = 0) ∨
        f32RoundMag n = (sh + 1) * 2 ^ 23 + (n / 2 ^ (sh + 1) + 1) ∧
          (2 ^ sh < n % 2 ^ (sh + 1) ∨ n % 2 ^ (sh + 1) = 2 ^ sh ∧ n / 2 ^ (sh + 1) % 2 = 1) := by
      unfold f32RoundMag at hfin ⊢
      rw [if_neg hn] at hfin ⊢
      simp only [hsh, Nat.add_sub_cancel] at hfin ⊢
      split at hfin
      · rename_i hup
        simp only [Bool.or_eq_true, Bool.and_eq_true, decide_eq_true_eq] at hup
        right
        exact ⟨by rw [if_pos (by simpa using hup)]; omega, hup⟩
      · rename_i hup
        simp only [Bool.or_eq_true, Bool.and_eq_true, decide_eq_true_eq] at hup
        left
        exact ⟨by rw [if_neg (by simpa using hup)]; omega, by omega⟩
    have hL := magUnits_normal (e := sh + 1) hq1 (by omega)
    have hH := magUnits_normal (e := sh + 1) (q := n / 2 ^ (sh + 1) + 1) (by omega) (by omega)
    have hlow : m ≤ (sh + 1) * 2 ^ 23 + n / 2 ^ (sh + 1) → magUnits m ≤ n / 2 ^ (sh + 1) * 2 ^ (sh + 1) := fun h =>
      hL ▸ magUnits_strictMono.monotone h
    have hhigh : (sh + 1) * 2 ^ 23 + (n / 2 ^ (sh + 1) + 1) ≤ m →
        (n / 2 ^ (sh + 1) + 1) * 2 ^ (sh + 1) ≤ magUnits m := fun h => hH ▸ magUnits_strictMono.monotone h
    have hmul : (n / 2 ^ (sh + 1) + 1) * 2 ^ (sh + 1) = n / 2 ^ (sh + 1) * 2 ^ (sh + 1) + 2 ^ (sh + 1) := by ring
    rw [hmul] at hH hhigh
    clear hmul
    rw [Nat.mul_comm] at hdm
    have h2 : 2 ^ (sh + 1) = 2 * 2 ^ sh := by rw [Nat.pow_succ, Nat.mul_comm]
    generalize n / 2 ^ (sh + 1) * 2 ^ (sh + 1) = L at *
    generalize n % 2 ^ (sh + 1) = r at *
    generalize n / 2 ^ (sh + 1) = q at *
    rw [h2] at *
    generalize 2 ^ sh = P at *
    generalize magUnits m = M at *
    have hcase : m ≤ (sh + 1) * 2 ^ 23 + q ∨ (sh + 1) * 2 ^ 23 + (q + 1) ≤ m := by omega
    rcases hR with ⟨hR, hr⟩ | ⟨hR, hr⟩
    · rw [hR, hL]
      rw [abs_of_nonpos (by omega : (L : Int) - n ≤ 0)]
      rcases hcase with hc | hc
      · have := hlow hc
        rw [abs_of_nonpos (by omega : (M : Int) - n ≤ 0)]
        omega
      · have := hhigh hc
        rw [abs_of_nonneg (by omega : (0 : Int) ≤ (M : Int) - n)]
        omega
    · rw [hR, hH]
      rw [abs_of_nonneg (by omega : (0 : Int) ≤ ((L + 2 * P : Nat) : Int) - n)]
      rcases hcase with hc | hc
      · have := hlow hc
        rw [abs_of_nonpos (by omega : (M : Int) - n ≤ 0)]
        omega
      · have := hhigh hc
        rw [abs_of_nonneg (by omega : (0 : Int) ≤ (M : Int) - n)]
        omega

/-! ## Patterns -/

/-- The magnitude of a pattern has 31 bits. -/
theorem f32Mag_lt (u : Word) : f32Mag u < 2 ^ 31 := Nat.mod_lt _ (by decide)

/-- The sign bit as a comparison. -/
theorem f32_msb (u : Word) : u.msb = decide (2 ^ 31 ≤ u.toNat) := BitVec.msb_eq_decide u

theorem f32Mag_fl32 {n : Int} (h : f32RoundMag n.natAbs < 0x7F800000) : f32Mag (fl32 n) = f32RoundMag n.natAbs := by
  simp only [f32Mag, fl32, BitVec.toNat_ofNat]
  split <;> omega

theorem msb_fl32 {n : Int} (h : f32RoundMag n.natAbs < 0x7F800000) : (fl32 n).msb = decide (n < 0) := by
  simp only [f32_msb, fl32, BitVec.toNat_ofNat]
  split <;> rename_i hn <;> simp only [hn, decide_true, decide_false, decide_eq_true_eq, decide_eq_false_iff_not] <;>
    omega

theorem toNat_fl32_mod_two (n : Int) :
    (fl32 n).toNat % 2 = f32RoundMag n.natAbs % 2 := by
  simp only [fl32, BitVec.toNat_ofNat]
  split <;> omega

/-- What `fl32` can do, while the result stays finite (R11): no pattern's value is nearer, and where another value is as
near, the result's pattern is even. -/
theorem fl32_nearest {n : Int} (h : f32RoundMag n.natAbs < 0x7F800000) (u : Word) :
    |f32Units (fl32 n) - n| ≤ |f32Units u - n| ∧
    (|f32Units u - n| = |f32Units (fl32 n) - n| → f32Units u = f32Units (fl32 n) ∨ (fl32 n).toNat % 2 = 0) := by
  obtain ⟨h1, h2⟩ := f32RoundMag_nearest h (f32Mag u)
  have hz := (f32RoundMag_nearest h 0).1
  rw [toNat_fl32_mod_two n]
  simp only [f32Units, f32MagUnits_eq, f32Mag_fl32 h, msb_fl32 h]
  have h0 : magUnits 0 = 0 := rfl
  rw [h0] at hz
  generalize magUnits (f32RoundMag n.natAbs) = R at *
  generalize magUnits (f32Mag u) = M at *
  generalize f32RoundMag n.natAbs = k at *
  simp only [decide_eq_true_eq, Int.abs_eq_natAbs] at *
  split <;> split <;> omega

/-- The order of the keys is the order of the units (R144). -/
theorem f32Key_lt_iff (a b : Word) : f32Key a < f32Key b ↔ f32Units a < f32Units b := by
  have h := magUnits_strictMono.lt_iff_lt (a := f32Mag a) (b := f32Mag b)
  have h' := magUnits_strictMono.lt_iff_lt (a := f32Mag b) (b := f32Mag a)
  have ha := magUnits_strictMono.lt_iff_lt (a := 0) (b := f32Mag a)
  have hb := magUnits_strictMono.lt_iff_lt (a := 0) (b := f32Mag b)
  have h0 : magUnits 0 = 0 := rfl
  rw [h0] at ha hb
  simp only [f32Key, f32Units, f32MagUnits_eq]
  split <;> split <;> omega

/-- The value of a finite pattern is its units, each 2^-149 (R42). -/
theorem f32Value_eq_units (u : Word) : f32Value u = (f32Units u : ℚ) / 2 ^ 149 := by
  have hlt := u.isLt
  have hm : f32Mag u / 2 ^ 23 = u.toNat / 2 ^ 23 % 2 ^ 8 := by unfold f32Mag; omega
  have hf : f32Mag u % 2 ^ 23 = u.toNat % 2 ^ 23 := by unfold f32Mag; omega
  have hs : u.msb = decide (u.toNat / 2 ^ 31 = 1) := by
    rw [f32_msb, decide_eq_decide]; omega
  have hmag : ((f32MagUnits u : ℕ) : ℚ) / 2 ^ 149 =
      if u.toNat / 2 ^ 23 % 2 ^ 8 = 0 then ((u.toNat % 2 ^ 23 : ℕ) : ℚ) / 2 ^ 149
      else (1 + ((u.toNat % 2 ^ 23 : ℕ) : ℚ) / 2 ^ 23) * 2 ^ ((u.toNat / 2 ^ 23 % 2 ^ 8 : ℕ) : ℤ) / 2 ^ 127 := by
    simp only [f32MagUnits, hm, hf]
    split
    · rfl
    · rename_i he
      obtain ⟨e, he'⟩ : ∃ e, u.toNat / 2 ^ 23 % 2 ^ 8 = e + 1 := ⟨_, (Nat.succ_pred_eq_of_ne_zero he).symm⟩
      rw [he', zpow_natCast, Nat.add_sub_cancel, pow_succ]
      push_cast
      ring
  rw [f32Value, ← hmag]
  unfold f32Units
  rw [hs]
  simp only [decide_eq_true_eq]
  split <;> push_cast <;> ring

/-! ## TEMP_CLEAR -/

/-- A finite magnitude is at most that of the largest finite pattern. -/
theorem magUnits_le {m : Nat} (h : m < 0x7F800000) : magUnits m ≤ (2 ^ 24 - 1) * 2 ^ 253 := by
  rw [← magUnits_normal (e := 253) (q := 2 ^ 24 - 1) (by omega) (by omega)]
  exact magUnits_strictMono.monotone (by omega)

/-- Rounding stays finite up to well above the largest finite magnitude plus 2.0. -/
theorem f32RoundMag_finite {n : Nat} (h : n ≤ (2 ^ 24 - 1) * 2 ^ 253 + 2 ^ 150) : f32RoundMag n < 0x7F800000 := by
  unfold f32RoundMag
  split
  · omega
  · have hsh : Nat.log2 n ≤ 276 := by
      have hlt : n < 2 ^ (24 + 253) := by
        have hbig : (2 : Nat) ^ 150 < 2 ^ 253 := by norm_num
        rw [Nat.pow_add]
        generalize (2 : Nat) ^ 253 = P at *
        generalize (2 : Nat) ^ 150 = Q at *
        omega
      have := (Nat.log2_lt (by omega)).mpr hlt
      omega
    have h24 : 24 ≤ Nat.log2 n := (Nat.le_log2 (by omega)).mpr (by omega)
    have hhi : n / 2 ^ (Nat.log2 n - 23) < 2 ^ 24 := by
      rw [Nat.div_lt_iff_lt_mul (by positivity), ← Nat.pow_add]
      have := Nat.lt_log2_self (n := n)
      rwa [show 24 + (Nat.log2 n - 23) = Nat.log2 n + 1 by omega]
    by_cases he : Nat.log2 n = 276
    · rw [he] at hhi ⊢
      simp only [Nat.reduceSub] at hhi ⊢
      have hdm := Nat.div_add_mod n (2 ^ 253)
      have hbig : (2 : Nat) ^ 150 < 2 ^ 252 := by norm_num
      have h253 : (2 : Nat) ^ 253 = 2 * 2 ^ 252 := by norm_num
      have hr : n / 2 ^ 253 = 2 ^ 24 - 1 → n % 2 ^ 253 < 2 ^ 252 := by
        intro hq
        rw [hq, h253] at hdm
        rw [h253] at h ⊢
        generalize (2 : Nat) ^ 252 = P at *
        generalize (2 : Nat) ^ 150 = Q at *
        generalize n % (2 * P) = r at *
        omega
      generalize n / 2 ^ 253 = q at *
      generalize n % 2 ^ 253 = r at *
      refine lt_of_le_of_lt (Nat.min_le_left _ _) ?_
      split
      · rename_i hup
        simp only [Bool.or_eq_true, Bool.and_eq_true, decide_eq_true_eq] at hup
        have : q ≠ 2 ^ 24 - 1 := fun hq => by
          have := hr hq
          generalize (2 : Nat) ^ 252 = P at *
          omega
        clear hup hdm h hbig h253 hr
        omega
      · clear hdm h hbig h253 hr
        omega
    · refine lt_of_le_of_lt (Nat.min_le_left _ _) ?_
      generalize n / 2 ^ (Nat.log2 n - 23) = q at *
      generalize n % 2 ^ (Nat.log2 n - 23) = r at *
      generalize Nat.log2 n = l at *
      clear h
      split <;> omega

/-- The exact difference that TEMP_CLEAR rounds stays finite (R9, D11). -/
theorem tempClear_finite {c : Config} (h : f32IsFinite c.tempWarning = true) :
    f32RoundMag (f32Units c.tempWarning - f32Units hystMargin).natAbs < 0x7F800000 := by
  have hm : f32Units hystMargin = 2 ^ 150 := by decide
  simp only [f32IsFinite, decide_eq_true_eq] at h
  have hu := magUnits_le h
  apply f32RoundMag_finite
  rw [hm]
  simp only [f32Units, f32MagUnits_eq]
  generalize magUnits (f32Mag c.tempWarning) = M at *
  split <;> omega

end Sys2Proof.Machine
end

