-- ==== Sys2Proof/Laws/State.lean ====
section
/-! SUPPORT. One lemma per field per update of the state, each true by `rfl`; and the fields of the two conditional
sends. -/

namespace Sys2Proof.Machine


/-! ## `quiet` -/

@[simp] theorem State.quiet_config (s : State) : (s.quiet).config = s.config := rfl
@[simp] theorem State.quiet_side (s : State) : (s.quiet).side = s.side := rfl
@[simp] theorem State.quiet_dec (s : State) : (s.quiet).dec = s.dec := rfl
@[simp] theorem State.quiet_reactor (s : State) : (s.quiet).reactor = s.reactor := rfl
@[simp] theorem State.quiet_sampleId (s : State) : (s.quiet).sampleId = s.sampleId := rfl
@[simp] theorem State.quiet_tlmCh (s : State) : (s.quiet).tlmCh = s.tlmCh := rfl
@[simp] theorem State.quiet_cmdCh (s : State) : (s.quiet).cmdCh = s.cmdCh := rfl
@[simp] theorem State.quiet_latest (s : State) : (s.quiet).latest = s.latest := rfl
@[simp] theorem State.quiet_upstream (s : State) : (s.quiet).upstream = s.upstream := rfl
@[simp] theorem State.quiet_out (s : State) : (s.quiet).out = {} := rfl
@[simp] theorem State.quiet_pending (s : State) : (s.quiet).pending = s.pending := rfl

/-! ## `raise` -/

@[simp] theorem State.raise_config (s : State) (e : Event) : (s.raise e).config = s.config := rfl
@[simp] theorem State.raise_side (s : State) (e : Event) : (s.raise e).side = s.side := rfl
@[simp] theorem State.raise_dec (s : State) (e : Event) : (s.raise e).dec = s.dec := rfl
@[simp] theorem State.raise_reactor (s : State) (e : Event) : (s.raise e).reactor = s.reactor := rfl
@[simp] theorem State.raise_sampleId (s : State) (e : Event) : (s.raise e).sampleId = s.sampleId := rfl
@[simp] theorem State.raise_tlmCh (s : State) (e : Event) : (s.raise e).tlmCh = s.tlmCh := rfl
@[simp] theorem State.raise_cmdCh (s : State) (e : Event) : (s.raise e).cmdCh = s.cmdCh := rfl
@[simp] theorem State.raise_latest (s : State) (e : Event) : (s.raise e).latest = s.latest := rfl
@[simp] theorem State.raise_upstream (s : State) (e : Event) : (s.raise e).upstream = s.upstream := rfl
@[simp] theorem State.raise_out (s : State) (e : Event) : (s.raise e).out = { s.out with events := s.out.events ++ [e] } := rfl
@[simp] theorem State.raise_pending (s : State) (e : Event) : (s.raise e).pending = s.pending := rfl

/-! ## `returning` -/

@[simp] theorem State.returning_config (s : State) (r : CallResult) : (s.returning r).config = s.config := rfl
@[simp] theorem State.returning_side (s : State) (r : CallResult) : (s.returning r).side = s.side := rfl
@[simp] theorem State.returning_dec (s : State) (r : CallResult) : (s.returning r).dec = s.dec := rfl
@[simp] theorem State.returning_reactor (s : State) (r : CallResult) : (s.returning r).reactor = s.reactor := rfl
@[simp] theorem State.returning_sampleId (s : State) (r : CallResult) : (s.returning r).sampleId = s.sampleId := rfl
@[simp] theorem State.returning_tlmCh (s : State) (r : CallResult) : (s.returning r).tlmCh = s.tlmCh := rfl
@[simp] theorem State.returning_cmdCh (s : State) (r : CallResult) : (s.returning r).cmdCh = s.cmdCh := rfl
@[simp] theorem State.returning_latest (s : State) (r : CallResult) : (s.returning r).latest = s.latest := rfl
@[simp] theorem State.returning_upstream (s : State) (r : CallResult) : (s.returning r).upstream = s.upstream := rfl
@[simp] theorem State.returning_out (s : State) (r : CallResult) : (s.returning r).out = { s.out with result := some r } := rfl
@[simp] theorem State.returning_pending (s : State) (r : CallResult) : (s.returning r).pending = s.pending := rfl

/-! ## `putLatest` -/

@[simp] theorem State.putLatest_config (s : State) (r : TelemetryRecord) : (s.putLatest r).config = s.config := rfl
@[simp] theorem State.putLatest_side (s : State) (r : TelemetryRecord) : (s.putLatest r).side = s.side := rfl
@[simp] theorem State.putLatest_dec (s : State) (r : TelemetryRecord) : (s.putLatest r).dec = s.dec := rfl
@[simp] theorem State.putLatest_reactor (s : State) (r : TelemetryRecord) : (s.putLatest r).reactor = s.reactor := rfl
@[simp] theorem State.putLatest_sampleId (s : State) (r : TelemetryRecord) : (s.putLatest r).sampleId = s.sampleId := rfl
@[simp] theorem State.putLatest_tlmCh (s : State) (r : TelemetryRecord) : (s.putLatest r).tlmCh = s.tlmCh := rfl
@[simp] theorem State.putLatest_cmdCh (s : State) (r : TelemetryRecord) : (s.putLatest r).cmdCh = s.cmdCh := rfl
@[simp] theorem State.putLatest_latest (s : State) (r : TelemetryRecord) : (s.putLatest r).latest = some r := rfl
@[simp] theorem State.putLatest_upstream (s : State) (r : TelemetryRecord) : (s.putLatest r).upstream = s.upstream := rfl
@[simp] theorem State.putLatest_out (s : State) (r : TelemetryRecord) : (s.putLatest r).out = s.out := rfl
@[simp] theorem State.putLatest_pending (s : State) (r : TelemetryRecord) : (s.putLatest r).pending = s.pending := rfl

/-! ## `afterByte` -/

@[simp] theorem State.afterByte_config (s : State) (r : DecResult) : (s.afterByte r).config = s.config := rfl
@[simp] theorem State.afterByte_side (s : State) (r : DecResult) : (s.afterByte r).side = s.side := rfl
@[simp] theorem State.afterByte_dec (s : State) (r : DecResult) : (s.afterByte r).dec = r.dec := rfl
@[simp] theorem State.afterByte_reactor (s : State) (r : DecResult) : (s.afterByte r).reactor = s.reactor := rfl
@[simp] theorem State.afterByte_sampleId (s : State) (r : DecResult) : (s.afterByte r).sampleId = s.sampleId := rfl
@[simp] theorem State.afterByte_tlmCh (s : State) (r : DecResult) : (s.afterByte r).tlmCh = s.tlmCh := rfl
@[simp] theorem State.afterByte_cmdCh (s : State) (r : DecResult) : (s.afterByte r).cmdCh = s.cmdCh := rfl
@[simp] theorem State.afterByte_latest (s : State) (r : DecResult) : (s.afterByte r).latest = s.latest := rfl
@[simp] theorem State.afterByte_upstream (s : State) (r : DecResult) : (s.afterByte r).upstream = s.upstream := rfl
@[simp] theorem State.afterByte_out (s : State) (r : DecResult) : (s.afterByte r).out = { s.out with frames := s.out.frames ++ r.frame.toList, events := s.out.events ++ r.event.toList } := rfl
@[simp] theorem State.afterByte_pending (s : State) (r : DecResult) : (s.afterByte r).pending = s.pending := rfl

/-! ## `setIndicator` -/

@[simp] theorem State.setIndicator_config (s : State) : (s.setIndicator).config = s.config := rfl
@[simp] theorem State.setIndicator_side (s : State) : (s.setIndicator).side = s.side := rfl
@[simp] theorem State.setIndicator_dec (s : State) : (s.setIndicator).dec = s.dec := rfl
@[simp] theorem State.setIndicator_reactor (s : State) : (s.setIndicator).reactor = s.reactor := rfl
@[simp] theorem State.setIndicator_sampleId (s : State) : (s.setIndicator).sampleId = s.sampleId := rfl
@[simp] theorem State.setIndicator_tlmCh (s : State) : (s.setIndicator).tlmCh = s.tlmCh := rfl
@[simp] theorem State.setIndicator_cmdCh (s : State) : (s.setIndicator).cmdCh = s.cmdCh := rfl
@[simp] theorem State.setIndicator_latest (s : State) : (s.setIndicator).latest = s.latest := rfl
@[simp] theorem State.setIndicator_upstream (s : State) : (s.setIndicator).upstream = s.upstream := rfl
@[simp] theorem State.setIndicator_out (s : State) : (s.setIndicator).out = { s.out with indicator := s.out.indicator ++ [s.reactor.state] } := rfl
@[simp] theorem State.setIndicator_pending (s : State) : (s.setIndicator).pending = s.pending := rfl

/-! ## `presenting` -/

@[simp] theorem State.presenting_config (s : State) (v : Invocation) : (s.presenting v).config = s.config := rfl
@[simp] theorem State.presenting_side (s : State) (v : Invocation) : (s.presenting v).side = s.side := rfl
@[simp] theorem State.presenting_dec (s : State) (v : Invocation) : (s.presenting v).dec = s.dec := rfl
@[simp] theorem State.presenting_reactor (s : State) (v : Invocation) : (s.presenting v).reactor = s.reactor := rfl
@[simp] theorem State.presenting_sampleId (s : State) (v : Invocation) : (s.presenting v).sampleId = s.sampleId := rfl
@[simp] theorem State.presenting_tlmCh (s : State) (v : Invocation) : (s.presenting v).tlmCh = s.tlmCh := rfl
@[simp] theorem State.presenting_cmdCh (s : State) (v : Invocation) : (s.presenting v).cmdCh = s.cmdCh := rfl
@[simp] theorem State.presenting_latest (s : State) (v : Invocation) : (s.presenting v).latest = s.latest := rfl
@[simp] theorem State.presenting_upstream (s : State) (v : Invocation) : (s.presenting v).upstream = s.upstream := rfl
@[simp] theorem State.presenting_out (s : State) (v : Invocation) : (s.presenting v).out = s.out := rfl
@[simp] theorem State.presenting_pending (s : State) (v : Invocation) : (s.presenting v).pending = .invoke v :: s.pending := rfl

/-! ## `Decoder.reset`, `Reactor.enterScram`, `Reactor.resetNormal` -/

@[simp] theorem Decoder.reset_decState (d : Decoder) : d.reset.decState = .waitStart := rfl
@[simp] theorem Decoder.reset_msgType (d : Decoder) : d.reset.msgType = 0 := rfl
@[simp] theorem Decoder.reset_len (d : Decoder) : d.reset.len = 0 := rfl
@[simp] theorem Decoder.reset_idx (d : Decoder) : d.reset.idx = 0 := rfl
@[simp] theorem Decoder.reset_checksumAcc (d : Decoder) : d.reset.checksumAcc = 0 := rfl
@[simp] theorem Decoder.reset_payload (d : Decoder) : d.reset.payload = d.payload := rfl
@[simp] theorem Reactor.enterScram_state (r : Reactor) : r.enterScram.state = .scram := rfl
@[simp] theorem Reactor.enterScram_power (r : Reactor) : r.enterScram.power = 0 := rfl
@[simp] theorem Reactor.resetNormal_state (r : Reactor) : r.resetNormal.state = .normal := rfl
@[simp] theorem Reactor.resetNormal_power (r : Reactor) : r.resetNormal.power = 50 := rfl

/-! ## `sendTelemetry`: all but the channel and the outputs -/

@[simp] theorem State.sendTelemetry_config (s : State) (r : TelemetryRecord) : (s.sendTelemetry r).config = s.config := by
  unfold State.sendTelemetry; split <;> rfl

@[simp] theorem State.sendTelemetry_side (s : State) (r : TelemetryRecord) : (s.sendTelemetry r).side = s.side := by
  unfold State.sendTelemetry; split <;> rfl

@[simp] theorem State.sendTelemetry_dec (s : State) (r : TelemetryRecord) : (s.sendTelemetry r).dec = s.dec := by
  unfold State.sendTelemetry; split <;> rfl

@[simp] theorem State.sendTelemetry_reactor (s : State) (r : TelemetryRecord) : (s.sendTelemetry r).reactor = s.reactor := by
  unfold State.sendTelemetry; split <;> rfl

@[simp] theorem State.sendTelemetry_sampleId (s : State) (r : TelemetryRecord) : (s.sendTelemetry r).sampleId = s.sampleId := by
  unfold State.sendTelemetry; split <;> rfl

@[simp] theorem State.sendTelemetry_cmdCh (s : State) (r : TelemetryRecord) : (s.sendTelemetry r).cmdCh = s.cmdCh := by
  unfold State.sendTelemetry; split <;> rfl

@[simp] theorem State.sendTelemetry_latest (s : State) (r : TelemetryRecord) : (s.sendTelemetry r).latest = s.latest := by
  unfold State.sendTelemetry; split <;> rfl

@[simp] theorem State.sendTelemetry_upstream (s : State) (r : TelemetryRecord) : (s.sendTelemetry r).upstream = s.upstream := by
  unfold State.sendTelemetry; split <;> rfl

@[simp] theorem State.sendTelemetry_pending (s : State) (r : TelemetryRecord) : (s.sendTelemetry r).pending = s.pending := by
  unfold State.sendTelemetry; split <;> rfl

/-! ## `sendCommand`: all but the channel and the outputs -/

@[simp] theorem State.sendCommand_config (s : State) (c : Command) : (s.sendCommand c).config = s.config := by
  unfold State.sendCommand; split <;> rfl

@[simp] theorem State.sendCommand_side (s : State) (c : Command) : (s.sendCommand c).side = s.side := by
  unfold State.sendCommand; split <;> rfl

@[simp] theorem State.sendCommand_dec (s : State) (c : Command) : (s.sendCommand c).dec = s.dec := by
  unfold State.sendCommand; split <;> rfl

@[simp] theorem State.sendCommand_reactor (s : State) (c : Command) : (s.sendCommand c).reactor = s.reactor := by
  unfold State.sendCommand; split <;> rfl

@[simp] theorem State.sendCommand_sampleId (s : State) (c : Command) : (s.sendCommand c).sampleId = s.sampleId := by
  unfold State.sendCommand; split <;> rfl

@[simp] theorem State.sendCommand_tlmCh (s : State) (c : Command) : (s.sendCommand c).tlmCh = s.tlmCh := by
  unfold State.sendCommand; split <;> rfl

@[simp] theorem State.sendCommand_latest (s : State) (c : Command) : (s.sendCommand c).latest = s.latest := by
  unfold State.sendCommand; split <;> rfl

@[simp] theorem State.sendCommand_upstream (s : State) (c : Command) : (s.sendCommand c).upstream = s.upstream := by
  unfold State.sendCommand; split <;> rfl

@[simp] theorem State.sendCommand_pending (s : State) (c : Command) : (s.sendCommand c).pending = s.pending := by
  unfold State.sendCommand; split <;> rfl

/-! ## `noteSensor`: all but the outputs -/

@[simp] theorem State.noteSensor_config (s : State) (ok : Bool) : (s.noteSensor ok).config = s.config := by
  unfold State.noteSensor; split <;> rfl

@[simp] theorem State.noteSensor_side (s : State) (ok : Bool) : (s.noteSensor ok).side = s.side := by
  unfold State.noteSensor; split <;> rfl

@[simp] theorem State.noteSensor_dec (s : State) (ok : Bool) : (s.noteSensor ok).dec = s.dec := by
  unfold State.noteSensor; split <;> rfl

@[simp] theorem State.noteSensor_reactor (s : State) (ok : Bool) : (s.noteSensor ok).reactor = s.reactor := by
  unfold State.noteSensor; split <;> rfl

@[simp] theorem State.noteSensor_sampleId (s : State) (ok : Bool) : (s.noteSensor ok).sampleId = s.sampleId := by
  unfold State.noteSensor; split <;> rfl

@[simp] theorem State.noteSensor_tlmCh (s : State) (ok : Bool) : (s.noteSensor ok).tlmCh = s.tlmCh := by
  unfold State.noteSensor; split <;> rfl

@[simp] theorem State.noteSensor_cmdCh (s : State) (ok : Bool) : (s.noteSensor ok).cmdCh = s.cmdCh := by
  unfold State.noteSensor; split <;> rfl

@[simp] theorem State.noteSensor_latest (s : State) (ok : Bool) : (s.noteSensor ok).latest = s.latest := by
  unfold State.noteSensor; split <;> rfl

@[simp] theorem State.noteSensor_upstream (s : State) (ok : Bool) : (s.noteSensor ok).upstream = s.upstream := by
  unfold State.noteSensor; split <;> rfl

@[simp] theorem State.noteSensor_pending (s : State) (ok : Bool) : (s.noteSensor ok).pending = s.pending := by
  unfold State.noteSensor; split <;> rfl

/-! ## `transmit`: all but the two outbound queues and the outputs -/

@[simp] theorem State.transmit_config (s : State) : (s.transmit).config = s.config := by
  unfold State.transmit; split <;> rfl

@[simp] theorem State.transmit_side (s : State) : (s.transmit).side = s.side := by
  unfold State.transmit; split <;> rfl

@[simp] theorem State.transmit_dec (s : State) : (s.transmit).dec = s.dec := by
  unfold State.transmit; split <;> rfl

@[simp] theorem State.transmit_reactor (s : State) : (s.transmit).reactor = s.reactor := by
  unfold State.transmit; split <;> rfl

@[simp] theorem State.transmit_sampleId (s : State) : (s.transmit).sampleId = s.sampleId := by
  unfold State.transmit; split <;> rfl

@[simp] theorem State.transmit_cmdCh (s : State) : (s.transmit).cmdCh = s.cmdCh := by
  unfold State.transmit; split <;> rfl

@[simp] theorem State.transmit_latest (s : State) : (s.transmit).latest = s.latest := by
  unfold State.transmit; split <;> rfl

@[simp] theorem State.transmit_frames (s : State) : (s.transmit).out.frames = s.out.frames := by
  unfold State.transmit; split <;> rfl

@[simp] theorem State.transmit_pending (s : State) : (s.transmit).pending = s.pending := by
  unfold State.transmit; split <;> rfl

/-! ## `takeLatest`: all but the cell and the outputs -/

@[simp] theorem State.takeLatest_config (s : State) : (s.takeLatest).config = s.config := by
  unfold State.takeLatest; split <;> rfl

@[simp] theorem State.takeLatest_side (s : State) : (s.takeLatest).side = s.side := by
  unfold State.takeLatest; split <;> rfl

@[simp] theorem State.takeLatest_dec (s : State) : (s.takeLatest).dec = s.dec := by
  unfold State.takeLatest; split <;> rfl

@[simp] theorem State.takeLatest_reactor (s : State) : (s.takeLatest).reactor = s.reactor := by
  unfold State.takeLatest; split <;> rfl

@[simp] theorem State.takeLatest_sampleId (s : State) : (s.takeLatest).sampleId = s.sampleId := by
  unfold State.takeLatest; split <;> rfl

@[simp] theorem State.takeLatest_tlmCh (s : State) : (s.takeLatest).tlmCh = s.tlmCh := by
  unfold State.takeLatest; split <;> rfl

@[simp] theorem State.takeLatest_cmdCh (s : State) : (s.takeLatest).cmdCh = s.cmdCh := by
  unfold State.takeLatest; split <;> rfl

@[simp] theorem State.takeLatest_upstream (s : State) : (s.takeLatest).upstream = s.upstream := by
  unfold State.takeLatest; split <;> rfl

@[simp] theorem State.takeLatest_pending (s : State) : (s.takeLatest).pending = s.pending := by
  unfold State.takeLatest; split <;> rfl

/-! ## `reportSample`: all but the counter, the channel and the outputs -/

@[simp] theorem State.reportSample_config (s : State) (temp accel : Word) :
    (s.reportSample temp accel).config = s.config := by
  simp [State.reportSample]

@[simp] theorem State.reportSample_side (s : State) (temp accel : Word) :
    (s.reportSample temp accel).side = s.side := by
  simp [State.reportSample]

@[simp] theorem State.reportSample_dec (s : State) (temp accel : Word) :
    (s.reportSample temp accel).dec = s.dec := by
  simp [State.reportSample]

@[simp] theorem State.reportSample_reactor (s : State) (temp accel : Word) :
    (s.reportSample temp accel).reactor = s.reactor := by
  simp [State.reportSample]

@[simp] theorem State.reportSample_cmdCh (s : State) (temp accel : Word) :
    (s.reportSample temp accel).cmdCh = s.cmdCh := by
  simp [State.reportSample]

@[simp] theorem State.reportSample_latest (s : State) (temp accel : Word) :
    (s.reportSample temp accel).latest = s.latest := by
  simp [State.reportSample]

@[simp] theorem State.reportSample_upstream (s : State) (temp accel : Word) :
    (s.reportSample temp accel).upstream = s.upstream := by
  simp [State.reportSample]

@[simp] theorem State.reportSample_pending (s : State) (temp accel : Word) :
    (s.reportSample temp accel).pending = s.pending := by
  simp [State.reportSample]

@[simp] theorem State.reportSample_sampleId (s : State) (temp accel : Word) :
    (s.reportSample temp accel).sampleId = s.sampleId + 1 := by
  simp [State.reportSample]

end Sys2Proof.Machine
end

