-- ==== Sys2Proof/Laws/Codec.lean ====
section
/-! SUPPORT. The layouts: a field, a record, a command and a frame are read back from the bytes written for them. -/

namespace Sys2Proof

/-- The four bytes of a field give the field (R11, R40). -/
theorem le32_extract (u : Word) :
    le32 (u.extractLsb' 0 8) (u.extractLsb' 8 8) (u.extractLsb' 16 8) (u.extractLsb' 24 8) = u := by
  apply BitVec.eq_of_toNat_eq
  simp only [le32, BitVec.toNat_ofNat, BitVec.extractLsb'_toNat, Nat.shiftRight_eq_div_pow]
  have := u.isLt
  omega

theorem telemetryBytes_length (r : TelemetryRecord) : (telemetryBytes r).length = tlmPayloadLen := rfl

theorem commandBytes_length_le (c : Command) : (commandBytes c).length ≤ maxPayload := by
  cases c <;> simp [commandBytes, bytesLe32, maxPayload]

/-- A record with a power of at most 100 is read back from its 14 bytes (R115, R116). -/
theorem telemetryFields_telemetryBytes {r : TelemetryRecord} (h : r.power ≤ powerMax) :
    telemetryFields (telemetryBytes r) = some r := by
  obtain ⟨n, t, a, st, p⟩ := r
  simp only at h
  cases st <;>
    simp [telemetryFields, telemetryBytes, bytesLe32, le32At, le32_extract, ReactorState.code, ReactorState.ofCode, h]

/-- The image of a frame of at most 64 payload bytes decodes to the frame's row (R61, R112). -/
theorem decodeFrame_frameBytes (t : Byte) {p : List Byte} (h : p.length ≤ 64) :
    decodeFrame (frameBytes t p) = .ok (frameRow t p) := by
  have h1 : ¬ maxPayload < p.length := by simp only [maxPayload]; omega
  simp [frameBytes, decodeFrame, h1, startMarker, Nat.mod_eq_of_lt (show p.length < 256 by omega)]

/-- What decoding a frame image can do: the bytes begin with the frame of the operation's row (R61, R64). -/
theorem decodeFrame_ok {bytes : List Byte} {i : Instr} (h : decodeFrame bytes = .ok i) :
    ∃ t p, p.length ≤ maxPayload ∧ i = frameRow t p ∧ frameBytes t p <+: bytes := by
  unfold decodeFrame at h
  split at h
  · rename_i m t n rest
    split at h
    · cases h
    · split at h
      · cases h
      · split at h
        · cases h
        · split at h
          · rename_i hm hn hl hc
            have hm : m = startMarker := by simpa using hm
            have hlen : (rest.take n.toNat).length = n.toNat := by simp; omega
            refine ⟨t, rest.take n.toNat, by omega, (Except.ok.inj h).symm, rest.drop (n.toNat + 1), ?_⟩
            have hsplit : rest = rest.take n.toNat ++ [rest.getD n.toNat 0] ++ rest.drop (n.toNat + 1) := by
              conv_lhs => rw [← List.take_append_drop (n.toNat + 1) rest]
              congr 1
              rw [List.take_add_one, List.getD_eq_getElem?_getD, List.getElem?_eq_getElem (by omega)]
              rfl
            rw [frameBytes, hlen, ← hc, hm, BitVec.ofNat_toNat, BitVec.setWidth_eq]
            simpa using hsplit.symm
          · cases h
  · cases h

namespace Machine

/-- A command is read back from its bytes (R118, R119). -/
theorem unpackCommand_commandBytes (c : Command) : unpackCommand (commandBytes c) = .ok c := by
  cases c with
  | scram => rfl
  | resetNormal => rfl
  | setPower v =>
    simp [unpackCommand, commandBytes, bytesLe32, cmdIdScram, cmdIdResetNormal, cmdIdSetPower, cmdLenSetPower, le32At,
      le32_extract]

/-- A record with a power of at most 100 is unpacked from its bytes (R115, R116). -/
theorem unpackTelemetry_telemetryBytes {r : TelemetryRecord} (h : r.power ≤ powerMax) :
    unpackTelemetry (telemetryBytes r) = .ok r := by
  simp [unpackTelemetry, telemetryBytes_length, telemetryFields_telemetryBytes h]

end Machine

end Sys2Proof
end

