-- ==== Sys2Proof/Laws/Memory.lean ====
section
/-! SUPPORT. The payload buffer: what a write changes and what it leaves, and that every operation keeps the canonical
form. -/

namespace Sys2Proof

/-- In a list whose addresses start at `lo`, every lower cell reads as unlisted. -/
theorem Memory.get_below {m : Memory} {lo a : Nat} (h : Memory.wfFrom lo m = true) (ha : a < lo) :
    m.get a = Memory.unlisted := by
  induction m generalizing lo with
  | nil => rfl
  | cons x m ih =>
    obtain ⟨k, v⟩ := x
    simp only [Memory.wfFrom, Bool.and_eq_true, decide_eq_true_eq] at h
    have hk : k ≠ a := by omega
    simp only [Memory.get, hk, if_false]
    exact ih h.2 (by omega)

theorem Memory.wfFrom_mono {m : Memory} {lo lo' : Nat} (h : Memory.wfFrom lo m = true) (hl : lo' ≤ lo) :
    Memory.wfFrom lo' m = true := by
  cases m with
  | nil => rfl
  | cons x m =>
    simp only [Memory.wfFrom, Bool.and_eq_true, decide_eq_true_eq] at h ⊢
    exact ⟨⟨⟨by omega, h.1.1.2⟩, h.1.2⟩, h.2⟩

/-- A write keeps the canonical form. -/
theorem Memory.wfFrom_put {m : Memory} {lo a : Nat} {b : Byte} (h : Memory.wfFrom lo m = true) (hlo : lo ≤ a)
    (ha : a < maxPayload) : Memory.wfFrom lo (m.put a b) = true := by
  induction m generalizing lo with
  | nil =>
    by_cases hb : b = Memory.unlisted <;> simp [Memory.put, Memory.wfFrom, hb, hlo, ha]
  | cons x m ih =>
    obtain ⟨k, v⟩ := x
    simp only [Memory.wfFrom, Bool.and_eq_true, decide_eq_true_eq] at h
    unfold Memory.put
    split
    · simp only [Memory.wfFrom, Bool.and_eq_true, decide_eq_true_eq]
      exact ⟨h.1, ih h.2 (by omega)⟩
    · split
      · split
        · exact Memory.wfFrom_mono h.2 (by omega)
        · rename_i hk hb
          subst hk
          simp_all [Memory.wfFrom]
      · split
        · simp [Memory.wfFrom, h]
        · rename_i hb
          simp only [Memory.wfFrom, Bool.and_eq_true, decide_eq_true_eq]
          refine ⟨⟨⟨hlo, ha⟩, by simpa using hb⟩, ⟨⟨by omega, h.1.1.2⟩, h.1.2⟩, h.2⟩

/-- Reading the cell just written gives the byte written. -/
theorem Memory.get_put_same {m : Memory} {lo a : Nat} {b : Byte} (h : Memory.wfFrom lo m = true) :
    (m.put a b).get a = b := by
  induction m generalizing lo with
  | nil => by_cases hb : b = Memory.unlisted <;> simp [Memory.put, Memory.get, hb]
  | cons x m ih =>
    obtain ⟨k, v⟩ := x
    simp only [Memory.wfFrom, Bool.and_eq_true, decide_eq_true_eq] at h
    unfold Memory.put
    split
    · have hk : k ≠ a := by omega
      simpa [Memory.get, hk] using ih h.2
    · split
      · split
        · rename_i hb
          rw [Memory.get_below h.2 (by omega), hb]
        · simp [Memory.get]
      · split
        · rename_i hb
          have hk : k ≠ a := by omega
          simp only [Memory.get, hk, if_false]
          rw [Memory.get_below h.2 (by omega), hb]
        · simp [Memory.get]

/-- Every other cell reads as before. -/
theorem Memory.get_put_other {m : Memory} {a c : Nat} {b : Byte} (hc : c ≠ a) : (m.put a b).get c = m.get c := by
  induction m with
  | nil => by_cases hb : b = Memory.unlisted <;> simp [Memory.put, Memory.get, hb, Ne.symm hc]
  | cons x m ih =>
    obtain ⟨k, v⟩ := x
    unfold Memory.put
    split
    · simp [Memory.get, ih]
    · split
      · rename_i hk
        subst hk
        split <;> simp [Memory.get, Ne.symm hc]
      · split <;> simp [Memory.get, Ne.symm hc]

/-- What a write can do: it needs an existing cell; then it keeps the canonical form, sets that cell and no other. -/
theorem Memory.write_spec {m m' : Memory} {a : Nat} {b : Byte} (h : Memory.wf m = true) (hw : m.write a b = some m') :
    a < maxPayload ∧ Memory.wf m' = true ∧ m'.get a = b ∧ ∀ c, c ≠ a → m'.get c = m.get c := by
  unfold Memory.write at hw
  split at hw
  · rename_i ha
    cases hw
    exact ⟨ha, Memory.wfFrom_put h (Nat.zero_le _) ha, Memory.get_put_same h, fun c hc => Memory.get_put_other hc⟩
  · cases hw

/-- What reading the first `n` cells can do. -/
theorem Memory.readFirst_spec {m : Memory} {n : Nat} {p : List Byte} (h : m.readFirst n = some p) :
    n ≤ maxPayload ∧ p.length = n ∧ ∀ k, k < n → p[k]? = some (m.get k) := by
  unfold Memory.readFirst at h
  split at h
  · rename_i hn
    cases h
    exact ⟨hn, by simp, fun k hk => by simp [hk]⟩
  · cases h

theorem Memory.readFirst_of_le {m : Memory} {n : Nat} (h : n ≤ maxPayload) :
    m.readFirst n = some ((List.range n).map m.get) := by
  simp [Memory.readFirst, h]

theorem Memory.write_of_lt {m : Memory} {a : Nat} {b : Byte} (h : a < maxPayload) :
    m.write a b = some (m.put a b) := by
  simp [Memory.write, h]

/-- The buffer after reset is in canonical form. -/
theorem Memory.wf_reset : Memory.wf Machine.State.reset.dec.payload = true := by decide

end Sys2Proof
end

