-- ==== Sys2Proof/Laws/Decoder.lean ====
section
/-! SUPPORT. The decoder: what one byte can do, what feeding bytes can do, and what inbound bytes can do to the state. -/

namespace Sys2Proof.Machine

/-! ## One byte -/

/-- The index moves by one and does not wrap below the length. -/
theorem idx_succ_toNat {d : Decoder} (hlen : d.len.toNat ≤ 64) (hi : d.idx.toNat < d.len.toNat) :
    (d.idx + 1).toNat = d.idx.toNat + 1 := by
  have h1 : (1 : BitVec 8).toNat = 1 := rfl
  rw [BitVec.toNat_add, h1]
  exact Nat.mod_eq_of_lt (by omega)

/-- From a state that R97 allows every byte completes, and R97 holds again. -/
theorem decStep_of_ok {d : Decoder} (h : decoderOk d) (b : Byte) : ∃ r, decStep d b = .ok r ∧ decoderOk r.dec := by
  obtain ⟨hlen, hpay, hck, hidle, hwf⟩ := h
  unfold decStep
  cases hs : d.decState with
  | waitStart =>
    by_cases hb : b = startMarker <;> simp [rowWsStart, rowWsNoise, decoderOk, *]
  | readType => simp [rowType, decoderOk, *]
  | readLen =>
    by_cases h1 : maxPayload < b.toNat
    · simp [h1, rowLenOver, decoderOk, hwf]
    · by_cases h2 : b = 0
      · subst h2
        simp [rowLenZero, decoderOk, hwf, maxPayload]
      · have h3 : b.toNat ≠ 0 := fun h => h2 (BitVec.eq_of_toNat_eq h)
        simp only [if_neg h1, if_neg h2, rowLenOk]
        simp only [maxPayload] at h1
        refine ⟨_, rfl, by simp only; omega, fun _ => ⟨by simp only; omega, ?_⟩, by simp, by simp, hwf⟩
        simp only
        change 0 < b.toNat
        omega
  | readPayload =>
    obtain ⟨h1, h2⟩ := hpay hs
    have hi : d.idx.toNat < maxPayload := by simp only [maxPayload]; omega
    have hw := (Memory.write_spec hwf (Memory.write_of_lt (b := b) hi)).2.1
    have hn := idx_succ_toNat hlen h2
    simp only [rowPayload, Memory.write_of_lt hi]
    refine ⟨_, rfl, hlen, ?_, ?_, ?_, hw⟩
    · intro hst
      by_cases he : d.idx + 1 = d.len
      · simp only [if_pos he] at hst
        cases hst
      · have : (d.idx + 1).toNat ≠ d.len.toNat := fun h => he (BitVec.eq_of_toNat_eq h)
        simp only
        omega
    · intro hst
      by_cases he : d.idx + 1 = d.len
      · exact Or.inr he
      · simp only [if_neg he] at hst
        cases hst
    · intro hst
      by_cases he : d.idx + 1 = d.len
      · simp only [if_pos he] at hst
        cases hst
      · simp only [if_neg he] at hst
        cases hst
  | readChecksum =>
    by_cases hb : b = d.checksumAcc
    · simp [hb, rowCkOk, Memory.readFirst_of_le hlen, decoderOk, hwf]
    · simp [hb, rowCkBad, decoderOk, hwf]

/-- Never both a frame and an event (R105). -/
theorem decStep_event_or_frame {d : Decoder} {b : Byte} {r : DecResult} (h : decStep d b = .ok r) :
    r.frame = none ∨ r.event = none := by
  unfold decStep at h
  split at h
  · split at h <;> (cases h; exact Or.inl rfl)
  · cases h; exact Or.inl rfl
  · split at h
    · cases h; exact Or.inl rfl
    · split at h <;> (cases h; exact Or.inl rfl)
  · unfold rowPayload at h
    split at h
    · cases h
    · cases h; exact Or.inl rfl
  · split at h
    · unfold rowCkOk at h
      split at h
      · cases h
      · cases h; exact Or.inr rfl
    · cases h; exact Or.inl rfl

/-! ## Feeding bytes -/

theorem decFeed_nil (d : Decoder) : decFeed d [] = .ok (d, [], []) := rfl

theorem decFeed_cons {d d' : Decoder} {b : Byte} {bs : List Byte} {r : DecResult} {fs : List Frame}
    {es : List Event} (h : decStep d b = .ok r) (hf : decFeed r.dec bs = .ok (d', fs, es)) :
    decFeed d (b :: bs) = .ok (d', r.frame.toList ++ fs, r.event.toList ++ es) := by
  simp [decFeed, h, hf]

/-- Feeding a concatenation is feeding the parts, one after the other (R85). -/
theorem decFeed_append {d d₁ d₂ : Decoder} {a b : List Byte} {f₁ f₂ : List Frame} {e₁ e₂ : List Event}
    (h₁ : decFeed d a = .ok (d₁, f₁, e₁)) (h₂ : decFeed d₁ b = .ok (d₂, f₂, e₂)) :
    decFeed d (a ++ b) = .ok (d₂, f₁ ++ f₂, e₁ ++ e₂) := by
  induction a generalizing d f₁ e₁ with
  | nil =>
    simp only [decFeed, Except.ok.injEq, Prod.mk.injEq] at h₁
    obtain ⟨rfl, rfl, rfl⟩ := h₁
    simpa using h₂
  | cons x a ih =>
    simp only [List.cons_append, decFeed] at h₁ ⊢
    cases hs : decStep d x with
    | error f => simp [hs] at h₁
    | ok r =>
      simp only [hs] at h₁ ⊢
      cases hf : decFeed r.dec a with
      | error f => simp [hf] at h₁
      | ok q =>
        obtain ⟨d', f', e'⟩ := q
        simp only [hf, Except.ok.injEq, Prod.mk.injEq] at h₁
        obtain ⟨rfl, rfl, rfl⟩ := h₁
        simp [ih hf]

/-- From a state that R97 allows every byte string is taken whole, and R97 holds at its end. -/
theorem decFeed_of_ok {d : Decoder} (h : decoderOk d) (bs : List Byte) :
    ∃ d' fs es, decFeed d bs = .ok (d', fs, es) ∧ decoderOk d' := by
  induction bs generalizing d with
  | nil => exact ⟨d, [], [], rfl, h⟩
  | cons b bs ih =>
    obtain ⟨r, hr, hok⟩ := decStep_of_ok h b
    obtain ⟨d', fs, es, hf, hd⟩ := ih hok
    exact ⟨d', _, _, decFeed_cons hr hf, hd⟩

/-! ## A whole frame -/

/-- Payload bytes that do not fill the frame leave the decoder in ReadPayload: they stand in the cells from `idx` on, and
the accumulator has them folded in. -/
theorem decFeed_payload {d : Decoder} {q : List Byte} (hs : d.decState = .readPayload)
    (hwf : Memory.wf d.payload = true) (hlen : d.len.toNat ≤ 64) (hq : q ≠ [])
    (hn : d.idx.toNat + q.length ≤ d.len.toNat) :
    ∃ m, decFeed d q = .ok ({ d with
        payload := m
        idx := BitVec.ofNat 8 (d.idx.toNat + q.length)
        checksumAcc := q.foldl (· ^^^ ·) d.checksumAcc
        decState := if d.idx.toNat + q.length = d.len.toNat then .readChecksum else .readPayload }, [], []) ∧
      Memory.wf m = true ∧ (∀ k, k < q.length → some (m.get (d.idx.toNat + k)) = q[k]?) ∧
      ∀ a, (a < d.idx.toNat ∨ d.idx.toNat + q.length ≤ a) → m.get a = d.payload.get a := by
  induction q generalizing d with
  | nil => exact absurd rfl hq
  | cons b q ih =>
    simp only [List.length_cons] at hn
    have hi : d.idx.toNat < maxPayload := by simp only [maxPayload]; omega
    obtain ⟨-, hwf', hsame, hother⟩ := Memory.write_spec hwf (Memory.write_of_lt (b := b) hi)
    have hidxN : (d.idx + 1).toNat = d.idx.toNat + 1 := idx_succ_toNat hlen (by omega)
    have hidx : d.idx + 1 = BitVec.ofNat 8 (d.idx.toNat + 1) := by rw [← hidxN, BitVec.ofNat_toNat]; simp
    have hstep : decStep d b = .ok { dec := { d with
        payload := d.payload.put d.idx.toNat b
        checksumAcc := d.checksumAcc ^^^ b
        idx := d.idx + 1
        decState := if d.idx + 1 = d.len then .readChecksum else .readPayload } } := by
      simp only [decStep, hs, rowPayload, Memory.write_of_lt hi]
    by_cases hlast : q = []
    · subst hlast
      refine ⟨_, (decFeed_cons hstep (decFeed_nil _)).trans ?_, hwf', ?_, ?_⟩
      · have hiff : (d.idx + 1 = d.len) = (d.idx.toNat + 1 = d.len.toNat) := by
          rw [BitVec.toNat_eq, hidxN]
        have hif : (if d.idx + 1 = d.len then DecState.readChecksum else DecState.readPayload) =
            if d.idx.toNat + 1 = d.len.toNat then .readChecksum else .readPayload := by simp only [hiff]
        rw [hif, hidx]
        rfl
      · intro k hk
        have : k = 0 := by simpa using hk
        subst this; simpa using hsame
      · intro a ha
        refine hother a ?_
        simp only [List.length_cons, List.length_nil] at ha
        omega
    · have hpos : 0 < q.length := List.length_pos_iff.mpr hlast
      have hne : d.idx + 1 ≠ d.len := fun h => by
        have := congrArg BitVec.toNat h
        rw [hidxN] at this; omega
      rw [if_neg hne] at hstep
      obtain ⟨m, hm, hmwf, hin, hout⟩ := ih (d := { d with
        payload := d.payload.put d.idx.toNat b
        checksumAcc := d.checksumAcc ^^^ b
        idx := d.idx + 1
        decState := .readPayload }) rfl hwf' hlen hlast (by simp only [hidxN]; omega)
      simp only [hidxN] at hm hin hout
      have e1 : d.idx.toNat + 1 + q.length = d.idx.toNat + (b :: q).length := by
        simp only [List.length_cons]; omega
      refine ⟨m, (decFeed_cons hstep hm).trans ?_, hmwf, ?_, ?_⟩
      · simp only [e1, List.foldl_cons]
        rfl
      · intro k hk
        cases k with
        | zero =>
          have : m.get d.idx.toNat = (d.payload.put d.idx.toNat b).get d.idx.toNat :=
            hout _ (Or.inl (by omega))
          simp [this, hsame]
        | succ k =>
          have := hin k (by simpa using hk)
          simpa [Nat.add_assoc, Nat.add_comm 1 k] using this
      · intro a ha
        simp only [List.length_cons] at ha
        rw [hout a (by omega), hother a (by omega)]

/-- The header of a frame of legal length, from idle. -/
theorem decFeed_header {d : Decoder} (t : Byte) {n : Byte} (hd : d.decState = .waitStart) (hn : n.toNat ≤ 64) :
    decFeed d [startMarker, t, n] = .ok ({ d with
      msgType := t
      len := n
      idx := if n = 0 then d.idx else 0
      checksumAcc := t ^^^ n
      decState := if n = 0 then .readChecksum else .readPayload }, [], []) := by
  have hno : ¬ maxPayload < n.toNat := by simp only [maxPayload]; omega
  have h1 : decStep d startMarker = .ok { dec := { d with decState := .readType } } := by
    simp [decStep, hd, rowWsStart]
  have h2 : decStep { d with decState := .readType } t =
      .ok { dec := { d with decState := .readLen, msgType := t, checksumAcc := t } } := rfl
  by_cases h0 : n = 0
  · subst h0
    have h3 : decStep { d with decState := .readLen, msgType := t, checksumAcc := t } 0 =
        .ok { dec := { d with msgType := t, len := 0, checksumAcc := t ^^^ 0, decState := .readChecksum } } := rfl
    simp only [decFeed, h1, h2, h3]
    rfl
  · have h3 : decStep { d with decState := .readLen, msgType := t, checksumAcc := t } n =
        .ok { dec := { d with msgType := t, len := n, idx := 0, checksumAcc := t ^^^ n, decState := .readPayload } } := by
      simp only [decStep, if_neg hno, if_neg h0, rowLenOk]
    rw [if_neg h0, if_neg h0]
    simp [decFeed, h1, h2, h3]

/-- Everything of a frame but its checksum byte, from WaitStart: no output; the decoder waits for the checksum with the
accumulator at CKSUM, and the payload stands in the first cells. -/
theorem decFeed_body {d : Decoder} (t : Byte) {p : List Byte} (hd : d.decState = .waitStart)
    (hwf : Memory.wf d.payload = true) (hp : p.length ≤ 64) :
    ∃ m i, decFeed d ([startMarker, t, BitVec.ofNat 8 p.length] ++ p) =
        .ok (Decoder.mk .readChecksum t (BitVec.ofNat 8 p.length) i (checksum t p) m, [], []) ∧
      Memory.wf m = true ∧ (∀ k, k < p.length → some (m.get k) = p[k]?) ∧
      ∀ a, p.length ≤ a → m.get a = d.payload.get a := by
  have hnN : (BitVec.ofNat 8 p.length).toNat = p.length := by simp; omega
  have hh := decFeed_header t (n := BitVec.ofNat 8 p.length) hd (by rw [hnN]; exact hp)
  by_cases h0 : p = []
  · subst h0
    refine ⟨d.payload, d.idx, ?_, hwf, by simp, by simp⟩
    simpa [checksum] using hh
  · have hpos : 0 < p.length := List.length_pos_iff.mpr h0
    have hn0 : BitVec.ofNat 8 p.length ≠ 0 := fun h => by
      have := congrArg BitVec.toNat h
      rw [hnN] at this; simp at this; exact h0 this
    simp only [hn0, if_false] at hh
    obtain ⟨m, hm, hmwf, hin, hout⟩ := decFeed_payload (d := { d with
      msgType := t
      len := BitVec.ofNat 8 p.length
      idx := 0
      checksumAcc := t ^^^ BitVec.ofNat 8 p.length
      decState := .readPayload }) (q := p) rfl hwf (by simp only [hnN]; exact hp) h0 (by simp only [hnN]; simp)
    simp only [hnN] at hm
    refine ⟨m, BitVec.ofNat 8 p.length, (decFeed_append hh hm).trans ?_, hmwf, ?_, ?_⟩
    · simp [checksum]
    · intro k hk; simpa using hin k hk
    · intro a ha; exact hout a (Or.inr (by simpa using ha))

/-- The checksum byte of a whole frame, right: the frame is emitted (R95). -/
theorem decStep_checksum_right {t : Byte} {p : List Byte} {m : Memory} {i : Byte} (hp : p.length ≤ 64)
    (hin : ∀ k, k < p.length → some (m.get k) = p[k]?) :
    decStep (Decoder.mk .readChecksum t (BitVec.ofNat 8 p.length) i (checksum t p) m) (checksum t p) =
      .ok { dec := { decState := .waitStart, msgType := 0, len := 0, idx := 0, checksumAcc := 0, payload := m }
            frame := some { typ := t, payload := p } } := by
  have hnN : (BitVec.ofNat 8 p.length).toNat = p.length := by simp; omega
  have hread : m.readFirst p.length = some p := by
    rw [Memory.readFirst_of_le hp]
    congr 1
    apply List.ext_getElem?
    intro k
    by_cases hk : k < p.length
    · rw [← hin k hk]
      simp [hk]
    · simp [hk]
  simp [decStep, rowCkOk, hnN, hread, Decoder.reset]

/-- A whole frame from WaitStart (R100). -/
theorem decFeed_frame {d : Decoder} (t : Byte) {p : List Byte} (hd : d.decState = .waitStart)
    (hwf : Memory.wf d.payload = true) (hp : p.length ≤ 64) :
    ∃ m, Memory.wf m = true ∧ (∀ k, k < p.length → some (m.get k) = p[k]?) ∧
      (∀ a, p.length ≤ a → m.get a = d.payload.get a) ∧
      decFeed d (frameBytes t p) = .ok (Decoder.mk .waitStart 0 0 0 0 m, [{ typ := t, payload := p }], []) := by
  obtain ⟨m, i, hb, hmwf, hin, hout⟩ := decFeed_body t hd hwf hp
  exact ⟨m, hmwf, hin, hout,
    decFeed_append hb (decFeed_cons (decStep_checksum_right hp hin) (decFeed_nil _))⟩

end Sys2Proof.Machine
end

