-- ==== Sys2Proof/Laws/Sequencing.lean ====
section
/-! SUPPORT. Inbound bytes, dispatch, the channels and the reactor: what each shared operation can do. -/

namespace Sys2Proof.Machine

/-! ## Channels -/

/-- What a send to the telemetry channel can do (R52). -/
theorem sendTelemetry_cases (s : State) (r : TelemetryRecord) :
    (s.tlmCh.length < s.config.tlmChCap ∧ s.sendTelemetry r = { s with tlmCh := s.tlmCh ++ [r] }) ∨
    (s.config.tlmChCap ≤ s.tlmCh.length ∧ s.sendTelemetry r = s.raise (.tlmChFull r.sampleId)) := by
  unfold State.sendTelemetry
  split
  · exact Or.inl ⟨‹_›, rfl⟩
  · exact Or.inr ⟨by omega, rfl⟩

/-- What a send to the command channel can do (R53). -/
theorem sendCommand_cases (s : State) (c : Command) :
    (s.cmdCh.length < s.config.cmdChCap ∧ s.sendCommand c = { s with cmdCh := s.cmdCh ++ [c] }) ∨
    (s.config.cmdChCap ≤ s.cmdCh.length ∧ s.sendCommand c = s.raise (.cmdChFull c)) := by
  unfold State.sendCommand
  split
  · exact Or.inl ⟨‹_›, rfl⟩
  · exact Or.inr ⟨by omega, rfl⟩

/-! ## Payloads -/

/-- A record that unpacks has a power of at most 100 (R79). -/
theorem telemetryFields_power {p : List Byte} {r : TelemetryRecord} (h : telemetryFields p = some r) :
    r.power ≤ powerMax := by
  unfold telemetryFields at h
  split at h
  · cases h
  · split at h
    · cases h; assumption
    · cases h

theorem unpackTelemetry_power {p : List Byte} {r : TelemetryRecord} (h : unpackTelemetry p = .ok r) :
    r.power ≤ powerMax := by
  unfold unpackTelemetry at h
  split at h
  · cases h
  · split at h
    · rename_i hr
      cases h
      exact telemetryFields_power hr
    · cases h

/-! ## Dispatch -/

/-- What dispatching a frame can do (R166, R169): a command sent, a record put, or an event raised. -/
theorem dispatch_cases (s : State) (f : Frame) :
    (∃ c, unpackCommand f.payload = .ok c ∧ s.dispatch f = s.sendCommand c) ∨
    (∃ r, unpackTelemetry f.payload = .ok r ∧ s.dispatch f = s.putLatest r) ∨
    (∃ e, s.dispatch f = s.raise e) := by
  unfold State.dispatch
  cases s.side with
  | reactor =>
    simp only [State.dispatchReactor]
    split
    · split
      · exact Or.inl ⟨_, ‹_›, rfl⟩
      · exact Or.inr (Or.inr ⟨_, rfl⟩)
    · exact Or.inr (Or.inr ⟨_, rfl⟩)
  | bridge =>
    simp only [State.dispatchBridge]
    split
    · split
      · exact Or.inr (Or.inl ⟨_, ‹_›, rfl⟩)
      · exact Or.inr (Or.inr ⟨_, rfl⟩)
    · exact Or.inr (Or.inr ⟨_, rfl⟩)

/-- What inbound bytes may have written; everything else is as before. -/
structure InboundOnly (s t : State) : Prop where
  same : t = { s with dec := t.dec, cmdCh := t.cmdCh, latest := t.latest, out := t.out }
  commands : s.cmdCh.length ≤ s.config.cmdChCap → t.cmdCh.length ≤ s.config.cmdChCap
  latestPower : (∀ r ∈ s.latest, r.power ≤ powerMax) → ∀ r ∈ t.latest, r.power ≤ powerMax

theorem InboundOnly.refl (s : State) : InboundOnly s s := ⟨rfl, id, id⟩

theorem InboundOnly.config {s t : State} (h : InboundOnly s t) : t.config = s.config := by rw [h.same]

theorem InboundOnly.trans {s t u : State} (h₁ : InboundOnly s t) (h₂ : InboundOnly t u) : InboundOnly s u where
  same := by rw [h₂.same, h₁.same]
  commands h := by simpa [h₁.config] using h₂.commands (by simpa [h₁.config] using h₁.commands h)
  latestPower h := h₂.latestPower (h₁.latestPower h)

theorem inboundOnly_dispatch (s : State) (f : Frame) : InboundOnly s (s.dispatch f) := by
  rcases dispatch_cases s f with ⟨c, -, h⟩ | ⟨r, hr, h⟩ | ⟨e, h⟩
  · rw [h]
    rcases sendCommand_cases s c with ⟨hlt, h'⟩ | ⟨-, h'⟩ <;> rw [h']
    · exact ⟨rfl, fun _ => by simp only [List.length_append, List.length_cons, List.length_nil]; omega, id⟩
    · exact ⟨rfl, id, id⟩
  · rw [h]
    exact ⟨rfl, id, fun _ x hx => by
      simp only [State.putLatest_latest, Option.mem_def, Option.some.injEq] at hx
      subst hx; exact unpackTelemetry_power hr⟩
  · rw [h]; exact ⟨rfl, id, id⟩

/-- Dispatch does not touch the decoder. -/
theorem dispatch_dec (s : State) (f : Frame) : (s.dispatch f).dec = s.dec := by
  rcases dispatch_cases s f with ⟨c, -, h⟩ | ⟨r, -, h⟩ | ⟨e, h⟩ <;> rw [h] <;> simp

/-- Dispatch emits no frame. -/
theorem dispatch_frames (s : State) (f : Frame) : (s.dispatch f).out.frames = s.out.frames := by
  rcases dispatch_cases s f with ⟨c, -, h⟩ | ⟨r, -, h⟩ | ⟨e, h⟩ <;> rw [h]
  · rcases sendCommand_cases s c with ⟨-, h'⟩ | ⟨-, h'⟩ <;> simp [h', State.raise]
  · rfl
  · rfl

/-- Dispatch handles the frame as items 3 and 4 of R166, and R169, say. -/
theorem dispatch_handled (s : State) (f : Frame) : frameHandled f s (s.dispatch f) := by
  refine ⟨fun hs ht => ⟨fun c hc => ⟨fun hl => ?_, fun hl => ?_⟩, fun e he => ?_⟩, fun hs ht => ⟨fun r hr => ?_, fun e he => ?_⟩,
    fun ht => ?_⟩
  · simp [State.dispatch, hs, State.dispatchReactor, typeCommand, ht, hc, State.sendCommand, hl]
  · simp [State.dispatch, hs, State.dispatchReactor, typeCommand, ht, hc, State.sendCommand, Nat.not_lt.mpr hl,
      State.raise, eventOnly]
  · simp [State.dispatch, hs, State.dispatchReactor, typeCommand, ht, he, State.raise, eventOnly]
  · simp [State.dispatch, hs, State.dispatchBridge, typeTelemetry, ht, hr, State.putLatest]
  · simp [State.dispatch, hs, State.dispatchBridge, typeTelemetry, ht, he, State.raise, eventOnly]
  · unfold State.dispatch
    cases hs : s.side <;> rw [hs] at ht
    · exact if_neg ht
    · exact if_neg ht

/-- Dispatch adds events and takes none away. -/
theorem dispatch_events (s : State) (f : Frame) : s.out.events.Sublist (s.dispatch f).out.events := by
  rcases dispatch_cases s f with ⟨c, -, h⟩ | ⟨r, -, h⟩ | ⟨e, h⟩ <;> rw [h]
  · rcases sendCommand_cases s c with ⟨-, h'⟩ | ⟨-, h'⟩ <;> simp [h', State.raise]
  · exact List.Sublist.refl _
  · simp [State.raise]

/-- The state with the two outbound queues and the bytes written as given: what inbound bytes neither read nor write. -/
def State.withOutbound (s : State) (tl : List TelemetryRecord) (up : List Command) (tx : List Byte) : State :=
  { s with tlmCh := tl, upstream := up, out := { s.out with tx := tx } }

theorem dispatch_withOutbound (s : State) (f : Frame) (tl : List TelemetryRecord) (up : List Command) (tx : List Byte) :
    (s.withOutbound tl up tx).dispatch f = (s.dispatch f).withOutbound tl up tx := by
  unfold State.dispatch
  rw [show (s.withOutbound tl up tx).side = s.side from rfl]
  cases s.side with
  | reactor =>
    simp only [State.dispatchReactor]
    split
    · split
      · simp only [State.sendCommand, show (s.withOutbound tl up tx).cmdCh = s.cmdCh from rfl,
          show (s.withOutbound tl up tx).config = s.config from rfl]
        split <;> rfl
      · rfl
    · rfl
  | bridge =>
    simp only [State.dispatchBridge]
    split
    · split <;> rfl
    · rfl

/-! ## Inbound bytes -/

/-- What one inbound byte can do: the decoder steps, the rest is dispatch. -/
theorem rxByte_ok {s t : State} {b : Byte} (h : s.rxByte b = .ok t) :
    ∃ r, decStep s.dec b = .ok r ∧ t = (s.afterByte r).dispatchOption r.frame ∧ t.dec = r.dec ∧ InboundOnly s t := by
  unfold State.rxByte at h
  cases hr : decStep s.dec b with
  | error f => simp [hr] at h
  | ok r =>
    simp only [hr, Except.ok.injEq] at h
    subst h
    have h0 : InboundOnly s (s.afterByte r) := ⟨rfl, id, id⟩
    refine ⟨r, rfl, rfl, ?_, ?_⟩ <;> cases hf : r.frame with
    | none => first | rfl | exact h0
    | some f => first | exact dispatch_dec _ _ | exact h0.trans (inboundOnly_dispatch _ _)

theorem rxByte_of_step {s : State} {b : Byte} {r : DecResult} (h : decStep s.dec b = .ok r) :
    s.rxByte b = .ok ((s.afterByte r).dispatchOption r.frame) := by
  simp [State.rxByte, h]

/-- What inbound bytes can do: everything else is as before. -/
theorem rxBytes_ok {s t : State} {bs : List Byte} (h : s.rxBytes bs = .ok t) : InboundOnly s t := by
  induction bs generalizing s with
  | nil => cases h; exact InboundOnly.refl _
  | cons b bs ih =>
    unfold State.rxBytes at h
    cases hb : s.rxByte b with
    | error f => simp [hb] at h
    | ok u =>
      simp only [hb] at h
      obtain ⟨_, _, _, _, hu⟩ := rxByte_ok hb
      exact hu.trans (ih h)

/-- From a decoder that R97 allows, inbound bytes are taken whole and R97 holds again (R104). -/
theorem rxBytes_of_ok {s : State} (h : decoderOk s.dec) (bs : List Byte) :
    ∃ t, s.rxBytes bs = .ok t ∧ decoderOk t.dec ∧ InboundOnly s t := by
  induction bs generalizing s with
  | nil => exact ⟨s, rfl, h, InboundOnly.refl s⟩
  | cons b bs ih =>
    obtain ⟨r, hr, hok⟩ := decStep_of_ok h b
    have hb := rxByte_of_step hr
    obtain ⟨r', hr', -, hd, hin⟩ := rxByte_ok hb
    have : r' = r := by rw [hr] at hr'; exact (Except.ok.inj hr').symm
    subst this
    obtain ⟨t, ht, hdt, hit⟩ := ih (s := (s.afterByte r').dispatchOption r'.frame) (by rw [hd]; exact hok)
    exact ⟨t, by simp [State.rxBytes, hb, ht], hdt, hin.trans hit⟩

/-- Inbound bytes in two parts (R49). -/
theorem rxBytes_append (s : State) (a b : List Byte) :
    s.rxBytes (a ++ b) = match s.rxBytes a with
      | .ok t => t.rxBytes b
      | .error f => .error f := by
  induction a generalizing s with
  | nil => rfl
  | cons x a ih =>
    simp only [List.cons_append, State.rxBytes]
    cases s.rxByte x with
    | error f => rfl
    | ok u => exact ih u

/-- Bytes that give neither a frame nor an event move the decoder alone. -/
theorem rxBytes_silent {s : State} {d : Decoder} {bs : List Byte} (h : decFeed s.dec bs = .ok (d, [], [])) :
    s.rxBytes bs = .ok { s with dec := d } := by
  induction bs generalizing s with
  | nil =>
    simp only [decFeed, Except.ok.injEq, Prod.mk.injEq] at h
    obtain ⟨rfl, -, -⟩ := h
    rfl
  | cons b bs ih =>
    unfold decFeed at h
    cases hr : decStep s.dec b with
    | error f => simp [hr] at h
    | ok r =>
      simp only [hr] at h
      cases hf : decFeed r.dec bs with
      | error f => simp [hf] at h
      | ok q =>
        obtain ⟨d', fs, es⟩ := q
        simp only [hf, Except.ok.injEq, Prod.mk.injEq, List.append_eq_nil_iff] at h
        obtain ⟨rfl, ⟨hfr, rfl⟩, hev, rfl⟩ := h
        have hfr' : r.frame = none := by cases hr' : r.frame <;> simp_all
        have hev' : r.event = none := by cases hr' : r.event <;> simp_all
        have h1 : (s.afterByte r).dispatchOption r.frame = { s with dec := r.dec } := by
          rw [hfr']; simp [State.dispatchOption, State.afterByte, hfr', hev']
        have h2 := ih (s := { s with dec := r.dec }) hf
        simp only [State.rxBytes, rxByte_of_step hr, h1, h2]

/-- Inbound bytes move the decoder and emit frames as feeding them does, and log every event of the feeding (R85, R166). -/
theorem rxBytes_of_decFeed {s : State} {d : Decoder} {bs : List Byte} {fs : List Frame} {es : List Event}
    (h : decFeed s.dec bs = .ok (d, fs, es)) :
    ∃ t, s.rxBytes bs = .ok t ∧ t.dec = d ∧ t.out.frames = s.out.frames ++ fs ∧
      (s.out.events ++ es).Sublist t.out.events := by
  induction bs generalizing s fs es with
  | nil =>
    simp only [decFeed, Except.ok.injEq, Prod.mk.injEq] at h
    obtain ⟨rfl, rfl, rfl⟩ := h
    exact ⟨s, rfl, rfl, by simp, by simp⟩
  | cons b bs ih =>
    unfold decFeed at h
    cases hr : decStep s.dec b with
    | error f => simp [hr] at h
    | ok r =>
      simp only [hr] at h
      cases hf : decFeed r.dec bs with
      | error f => simp [hf] at h
      | ok q =>
        obtain ⟨d', fs', es'⟩ := q
        simp only [hf, Except.ok.injEq, Prod.mk.injEq] at h
        obtain ⟨rfl, rfl, rfl⟩ := h
        obtain ⟨u, hu, hd, hfr, hev⟩ : ∃ u, s.rxByte b = .ok u ∧ u.dec = r.dec ∧
            u.out.frames = s.out.frames ++ r.frame.toList ∧ (s.out.events ++ r.event.toList).Sublist u.out.events := by
          refine ⟨_, rxByte_of_step hr, ?_, ?_, ?_⟩ <;> cases hfm : r.frame
          · rfl
          · exact dispatch_dec _ _
          · simp [State.dispatchOption, State.afterByte, hfm]
          · simp [State.dispatchOption, dispatch_frames, State.afterByte, hfm]
          · exact List.Sublist.refl _
          · exact dispatch_events (s.afterByte r) _
        obtain ⟨t, ht, htd, htf, hte⟩ := ih (s := u) (by rw [hd]; exact hf)
        refine ⟨t, by simp [State.rxBytes, hu, ht], htd, by simp [htf, hfr], ?_⟩
        rw [← List.append_assoc]
        exact (hev.append (List.Sublist.refl es')).trans hte

/-- Inbound bytes neither read nor write the outbound queues and the bytes written. -/
theorem rxBytes_withOutbound {s t : State} {bs : List Byte} (h : s.rxBytes bs = .ok t) (tl : List TelemetryRecord)
    (up : List Command) (tx : List Byte) :
    (s.withOutbound tl up tx).rxBytes bs = .ok (t.withOutbound tl up tx) := by
  induction bs generalizing s with
  | nil => cases h; rfl
  | cons b bs ih =>
    unfold State.rxBytes at h ⊢
    cases hb : s.rxByte b with
    | error f => simp [hb] at h
    | ok u =>
      simp only [hb] at h
      obtain ⟨r, hr, hu, -, -⟩ := rxByte_ok hb
      have hb' : (s.withOutbound tl up tx).rxByte b = .ok (u.withOutbound tl up tx) := by
        rw [rxByte_of_step (s := s.withOutbound tl up tx) hr, hu]
        congr 1
        cases r.frame with
        | none => rfl
        | some f => exact dispatch_withOutbound (s.afterByte r) f tl up tx
      simp only [hb']
      exact ih h

/-- A whole frame arriving at a decoder in WaitStart: emitted, then dispatched. The payload's bytes stand in the first
cells; every other cell reads as before. -/
theorem rxBytes_frame {s : State} (t : Byte) {p : List Byte} (hd : s.dec.decState = .waitStart)
    (hwf : Memory.wf s.dec.payload = true) (hp : p.length ≤ 64) :
    ∃ m, Memory.wf m = true ∧ (∀ k, k < p.length → some (m.get k) = p[k]?) ∧
      (∀ a, p.length ≤ a → m.get a = s.dec.payload.get a) ∧
      s.rxBytes (frameBytes t p) = .ok ({ s with
        dec := Decoder.mk .waitStart 0 0 0 0 m
        out := { s.out with frames := s.out.frames ++ [Frame.mk t p] } }.dispatch
          { typ := t, payload := p }) := by
  obtain ⟨m, i, hb, hmwf, hin, hout⟩ := decFeed_body t hd hwf hp
  refine ⟨m, hmwf, hin, hout, ?_⟩
  have h2 := rxByte_of_step (s := { s with dec := Decoder.mk .readChecksum t (BitVec.ofNat 8 p.length) i (checksum t p) m })
    (decStep_checksum_right hp hin)
  rw [frameBytes, rxBytes_append, rxBytes_silent hb]
  simp only [State.rxBytes, h2]
  simp [State.afterByte, State.dispatchOption]

/-! ## The reactor -/

/-- What the evaluation can do (R135): enter Scram with power 0, stay in Scram with power 0, or leave the power alone and
end outside Scram. -/
theorem eval_cases (c : Config) (temp accel : Word) (r : Reactor) :
    r.eval c temp accel = { state := .scram, power := 0 } ∨
    ((r.eval c temp accel).power = r.power ∧ (r.eval c temp accel).state ≠ .scram ∧ r.state ≠ .scram) := by
  obtain ⟨st, pw⟩ := r
  unfold Reactor.eval
  cases st with
  | normal =>
    simp only
    split
    · exact Or.inl rfl
    · split <;> exact Or.inr ⟨rfl, by simp, by simp⟩
  | warning =>
    simp only
    split
    · exact Or.inl rfl
    · split <;> exact Or.inr ⟨rfl, by simp, by simp⟩
  | scram => exact Or.inl rfl

theorem eval_scram {c : Config} {temp accel : Word} {r : Reactor} (h : r.state = .scram) :
    r.eval c temp accel = { state := .scram, power := 0 } := by
  obtain ⟨st, pw⟩ := r
  cases h; rfl

/-- The clamp is the clamp of the integers (R134, R151). -/
theorem clampPower_toNat (v : Word) : ((clampPower v).toNat : Int) = max 0 (min v.toInt 100) := by
  unfold clampPower
  split
  · simp; omega
  · split
    · simp [powerMax]; omega
    · rw [BitVec.toNat_ofInt]; omega

theorem clampPower_le (v : Word) : clampPower v ≤ powerMax := by
  have h := clampPower_toNat v
  rw [BitVec.le_def]
  simp only [powerMax]
  have : (100 : BitVec 8).toNat = 100 := rfl
  omega

/-- A command applied leaves a power of at most 100. -/
theorem apply_power (r : Reactor) (c : Command) : (r.apply c).power ≤ powerMax := by
  cases c with
  | scram => simp [Reactor.apply, powerMax]
  | resetNormal => simp [Reactor.apply, powerMax]
  | setPower v => exact clampPower_le v

theorem applyAll_power {r : Reactor} (h : r.power ≤ powerMax) (cmds : List Command) :
    (r.applyAll cmds).power ≤ powerMax := by
  induction cmds generalizing r with
  | nil => exact h
  | cons c cs ih => exact ih (apply_power r c)

theorem applyAll_append (r : Reactor) (a b : List Command) : r.applyAll (a ++ b) = (r.applyAll a).applyAll b := by
  simp [Reactor.applyAll, List.foldl_append]

/-- What a reactor step can do: it ends in (Scram, 0), or outside Scram with the batch's power (R146, R152). -/
theorem reactorStep_cases (c : Config) (cmds : List Command) (temp accel : Word) (ok : Bool) (r : Reactor) :
    r.step c cmds temp accel ok = { state := .scram, power := 0 } ∨
    ((r.step c cmds temp accel ok).power = (r.applyAll cmds).power ∧
      (r.step c cmds temp accel ok).state ≠ .scram) := by
  unfold Reactor.step
  split
  · rcases eval_cases c temp accel (r.applyAll cmds) with h | ⟨h, h', -⟩
    · exact Or.inl h
    · exact Or.inr ⟨h, h'⟩
  · exact Or.inl rfl

end Sys2Proof.Machine
end

