-- ==== Sys2Proof/Laws/Exec.lean ====
section
/-! SUPPORT. One input byte as an operation: the row it is classified as is selected, and its meaning is `decStep`. -/

namespace Sys2Proof.Machine

/-- The row a byte is classified as is selected (R73). -/
theorem selects_classify (st : DecState) (acc b : Byte) : selects st acc (classify st acc b) = true := by
  cases st with
  | waitStart => simp only [classify]; split <;> simp [selects, *]
  | readType => rfl
  | readLen =>
    simp only [classify]
    split
    · simp [selects, *]
    · split
      · simp [selects, *]
      · have h0 : b.toNat ≠ 0 := fun h => ‹¬b = 0› (BitVec.eq_of_toNat_eq h)
        simp only [selects, beq_self_eq_true, Bool.true_and, Bool.and_eq_true, decide_eq_true_eq]
        omega
  | readPayload => rfl
  | readChecksum => simp only [classify]; split <;> simp [selects, *]

/-- A byte's row does what `decStep` does (R73, R85). -/
theorem exec_classify (s : State) (b : Byte) :
    exec (classify s.dec.decState s.dec.checksumAcc b) s = s.byteOp true (decStep s.dec b) := by
  have hs := selects_classify s.dec.decState s.dec.checksumAcc b
  unfold classify decStep at *
  cases h : s.dec.decState <;> simp only [h] at hs ⊢
  · split at hs <;> rename_i hb
    · simp only [if_pos hb, exec, execDecWsStart, h, hs]
    · simp only [if_neg hb, exec, execDecWsNoise, h, hs]
  · simp only [exec, execDecType, h, hs]
  · split at hs
    · rename_i h1
      simp only [if_pos h1, exec, execDecLenOver, h, hs]
    · split at hs
      · rename_i h1 h2
        simp only [if_neg h1, if_pos h2, exec, execDecLenZero, h, hs]
      · rename_i h1 h2
        simp only [if_neg h1, if_neg h2, exec, execDecLenOk, h, hs]
  · simp only [exec, execDecPayload, h, hs]
  · split at hs <;> rename_i hb
    · simp only [if_pos hb, exec, execDecCkOk, h, hs]
    · simp only [if_neg hb, exec, execDecCkBad, h, hs]

/-- One step on an input byte (R62, R73, R85). -/
theorem step_byte {s : State} {b : Byte} {rest : List HostEvent} (ha : admissible s.config = true)
    (hp : s.pending = .invoke (.byte b) :: rest) :
    step s = State.byteOp { s with pending := rest } true (decStep s.dec b) := by
  have h := exec_classify { s with pending := rest } b
  simp only [step, runStep, ha, if_true, runNext, hp, runEvent, runInvocation, decode]
  exact h

end Sys2Proof.Machine
end

