-- ==== Sys2Proof/Laws/PerInstr.lean ====
section
/-! SUPPORT. A law for every operation: the encoding of a well-formed operation has its row's format and length. -/

namespace Sys2Proof.Laws.EncodeFits

/-- The encoding of `i`, if it is well formed, fits its format (R61, R64, R70, R83): a frame image begins with the start
marker and has 4 to 68 bytes; a Command payload has 1 or 5; a byte class has one byte; a call names the operation. -/
def Statement (i : Instr) : Prop :=
  i.wellFormed = true →
    match encode i with
    | .frame bytes => bytes.head? = some startMarker ∧ 4 ≤ bytes.length ∧ bytes.length ≤ longestInstr
    | .command p => p.length = 1 ∨ p.length = cmdLenSetPower
    | .byte b => ∃ st acc, classify st acc b = i
    | .call c => c.instr = i

/-- Every frame of at most 64 payload bytes has 4 to 68 bytes. -/
theorem frameBytes_fits (t : Byte) {p : List Byte} (h : p.length ≤ maxPayload) :
    (frameBytes t p).head? = some startMarker ∧ 4 ≤ (frameBytes t p).length ∧
      (frameBytes t p).length ≤ longestInstr := by
  simp only [maxPayload] at h
  refine ⟨rfl, ?_, ?_⟩ <;> simp only [frameBytes, List.length_append, List.length_cons, List.length_nil, longestInstr] <;>
    omega

theorem frame (t : Byte) (p : List Byte) : Statement (.frame t p) := fun h => frameBytes_fits t (by
    simp only [Instr.wellFormed, Bool.and_eq_true, decide_eq_true_eq] at h; exact h.1)

theorem telemetry (r : TelemetryRecord) : Statement (.telemetry r) := fun _ => frameBytes_fits _ (by rw [telemetryBytes_length]; decide)

theorem scram : Statement .scram := fun _ => frameBytes_fits _ (commandBytes_length_le _)

theorem resetNormal : Statement .resetNormal := fun _ => frameBytes_fits _ (commandBytes_length_le _)

theorem setPower (v : Word) : Statement (.setPower v) := fun _ => frameBytes_fits _ (commandBytes_length_le _)

theorem rsmCmdScram : Statement .rsmCmdScram := fun _ => Or.inl rfl

theorem rsmCmdResetNormal : Statement .rsmCmdResetNormal := fun _ => Or.inl rfl

theorem rsmCmdSetPower (v : Word) : Statement (.rsmCmdSetPower v) := fun _ => Or.inr rfl

theorem decWsStart (b : Byte) : Statement (.decWsStart b) := fun h =>
  ⟨.waitStart, 0, by simp only [Instr.wellFormed, beq_iff_eq] at h; simp [classify, h]⟩

theorem decWsNoise (b : Byte) : Statement (.decWsNoise b) := fun h =>
  ⟨.waitStart, 0, by simp only [Instr.wellFormed, bne_iff_ne] at h; simp [classify, h]⟩

theorem decType (b : Byte) : Statement (.decType b) := fun _ => ⟨.readType, 0, rfl⟩

theorem decLenOver (b : Byte) : Statement (.decLenOver b) := fun h =>
  ⟨.readLen, 0, by simp only [Instr.wellFormed, decide_eq_true_eq] at h; simp [classify, h]⟩

theorem decLenZero (b : Byte) : Statement (.decLenZero b) := fun h =>
  ⟨.readLen, 0, by simp only [Instr.wellFormed, beq_iff_eq] at h; subst h; rfl⟩

theorem decLenOk (b : Byte) : Statement (.decLenOk b) := fun h =>
  ⟨.readLen, 0, by
    simp only [Instr.wellFormed, Bool.and_eq_true, decide_eq_true_eq] at h
    have h0 : b ≠ 0 := fun e => by subst e; exact absurd h.1 (by decide)
    simp only [classify, if_neg h0, if_neg (show ¬ maxPayload < b.toNat by omega)]⟩

theorem decPayload (b : Byte) : Statement (.decPayload b) := fun _ => ⟨.readPayload, 0, rfl⟩

theorem decCkOk (b : Byte) : Statement (.decCkOk b) := fun _ => ⟨.readChecksum, b, by simp [classify]⟩

theorem decCkBad (b : Byte) : Statement (.decCkBad b) := fun _ =>
  ⟨.readChecksum, b + 1, by
    have h : b ≠ b + 1 := by bv_omega
    simp only [classify, if_neg h]⟩

theorem decReset : Statement .decReset := fun _ => rfl

theorem cksum (t : Byte) (p : List Byte) : Statement (.cksum t p) := fun _ => rfl

theorem encFrame (t : Byte) (p : List Byte) : Statement (.encFrame t p) := fun _ => rfl

theorem tlmPack (r : TelemetryRecord) : Statement (.tlmPack r) := fun _ => rfl

theorem tlmUnpack (p : List Byte) : Statement (.tlmUnpack p) := fun _ => rfl

theorem cmdPack (c : Command) : Statement (.cmdPack c) := fun _ => rfl

theorem cmdUnpack (p : List Byte) : Statement (.cmdUnpack p) := fun _ => rfl

theorem rsmEval (temp accel : Word) : Statement (.rsmEval temp accel) := fun _ => rfl

theorem rsmFailsafe : Statement .rsmFailsafe := fun _ => rfl

theorem rsmStep (cmds : List Command) (temp accel : Word) (ok : Bool) : Statement (.rsmStep cmds temp accel ok) := fun _ => rfl

theorem ctrlStep (temp accel : Word) (ok : Bool) : Statement (.ctrlStep temp accel ok) := fun _ => rfl

theorem commsIter (bytes : List Byte) : Statement (.commsIter bytes) := fun _ => rfl

end Sys2Proof.Laws.EncodeFits
end

