-- ==== Sys2Proof/Tests/Slice0.lean ====
section
/-! SUPPORT. Tests: ill-formed operations refused, written-out words decoded, single steps with results from the spec's
test vectors (95_test_vectors, cited by their ids), and a witness for the hypotheses of each statement. -/

namespace Sys2Proof.Tests

open Sys2Proof Sys2Proof.Machine

/-! ## Helpers -/

/-- One field of the next state. -/
def seen {α : Type} (f : State → α) : Host.Outcome State Fault Refusal → Option α
  | .next s => some (f s)
  | .fault _ => none
  | .refused _ => none

/-- The reset state with the reactor at the given pair. -/
def inReactor (st : ReactorState) (p : Byte) : State := { State.reset with reactor := { state := st, power := p } }

/-- The reset state with the decoder as given. -/
def inDecoder (st : DecState) (t n i acc : Byte) (m : Memory) : State :=
  { State.reset with dec := Decoder.mk st t n i acc m }

/-- The reset state with something pending. -/
def asking (es : List HostEvent) : State := { State.reset with pending := es }

/-- The reset state on the bridge side. -/
def bridge : State := State.powerOn Config.chosen .bridge

/-- 64 bytes, `p[i] = i` (vector K8). -/
def ramp : List Byte := (List.range 64).map fun i => BitVec.ofNat 8 i

/-- The record of vector E7. -/
def recE7 : TelemetryRecord :=
  { sampleId := 0, temperature := 0x42380000, accelMag := 0, state := .warning, power := 50 }

/-- The 14 payload bytes of vector E7. -/
def bytesE7 : List Byte := [0, 0, 0, 0, 0, 0, 0x38, 0x42, 0, 0, 0, 0, 1, 0x32]

/-! ## Ill-formed operations (R73, R83, R111, R112, R117) -/

theorem test_wf_frame_too_long : (Instr.frame 0x10 (ramp ++ [0])).wellFormed = false := by decide
theorem test_wf_frame_longest : (Instr.frame 0x7E ramp).wellFormed = true := by decide
theorem test_wf_frame_is_scram : (Instr.frame 0x10 [1]).wellFormed = false := by decide
theorem test_wf_frame_is_reset_normal : (Instr.frame 0x10 [2]).wellFormed = false := by decide
theorem test_wf_frame_is_set_power : (Instr.frame 0x10 [3, 0, 0, 0, 0]).wellFormed = false := by decide
theorem test_wf_frame_is_telemetry : (Instr.frame 0x01 bytesE7).wellFormed = false := by decide
theorem test_wf_telemetry_power : (Instr.telemetry { recE7 with power := 101 }).wellFormed = false := by decide
theorem test_wf_ws_start : (Instr.decWsStart 0xAB).wellFormed = false := by decide
theorem test_wf_ws_noise : (Instr.decWsNoise 0xAA).wellFormed = false := by decide
theorem test_wf_len_over : (Instr.decLenOver 64).wellFormed = false := by decide
theorem test_wf_len_zero : (Instr.decLenZero 1).wellFormed = false := by decide
theorem test_wf_len_ok_low : (Instr.decLenOk 0).wellFormed = false := by decide
theorem test_wf_len_ok_high : (Instr.decLenOk 65).wellFormed = false := by decide
theorem test_wf_cksum : (Instr.cksum 0 (ramp ++ [0])).wellFormed = false := by decide
theorem test_wf_enc_frame : (Instr.encFrame 0 (ramp ++ [0])).wellFormed = false := by decide
theorem test_wf_tlm_pack : (Instr.tlmPack { recE7 with power := 101 }).wellFormed = false := by decide
theorem test_wf_tlm_unpack : (Instr.tlmUnpack (ramp ++ [0])).wellFormed = false := by decide
theorem test_wf_cmd_unpack : (Instr.cmdUnpack (ramp ++ [0])).wellFormed = false := by decide

/-! ## Written-out words (R61, R66, R70, R71, R73; vectors E1 to E13) -/

theorem test_decode_scram : decodeTableWord 40 0x10010110AA = some .scram := by decide
theorem test_decode_reset_normal : decodeTableWord 40 0x13020110AA = some .resetNormal := by decide
theorem test_decode_set_power : decodeTableWord 72 0x12FFFFFFFB030510AA = some (.setPower (-5)) := by decide
theorem test_decode_telemetry :
    decodeTableWord 144 0x4632010000000042380000000000000E01AA = some (.telemetry recE7) := by decide
theorem test_decode_frame : decodeTableWord 48 0xA8AAAA02AAAA = some (.frame 0xAA [0xAA, 0xAA]) := by decide
theorem test_decode_frame_empty : decodeTableWord 8 0xAA = some (.frame 0 []) := by decide
theorem test_decode_bad_checksum : decodeTableWord 40 0x11010110AA = none := by decide
theorem test_decode_rsm_scram : decodeTableWord 8 0x01 = some .rsmCmdScram := by decide
theorem test_decode_rsm_reset_normal : decodeTableWord 8 0x02 = some .rsmCmdResetNormal := by decide
theorem test_decode_rsm_set_power : decodeTableWord 40 0x0000004B03 = some (.rsmCmdSetPower 75) := by decide
theorem test_decode_unknown_command : decodeTableWord 8 0x04 = none := by decide
theorem test_decode_undersize_command : decodeCommand [3, 0x4B, 0, 0] = .error .undersizeCommand := by decide
theorem test_decode_oversize : decodeFrame [0xAA, 0x10, 0x41] = .error .oversizeLength := by decide
theorem test_decode_truncated : decodeFrame [0xAA, 0x10, 0x01, 0x01] = .error .truncated := by decide
theorem test_decode_ws_start : decode .waitStart 0 (.byte 0xAA) = .ok (.decWsStart 0xAA) := by decide
theorem test_decode_ws_noise : decode .waitStart 0 (.byte 0x55) = .ok (.decWsNoise 0x55) := by decide
theorem test_decode_type : decode .readType 0 (.byte 0xAA) = .ok (.decType 0xAA) := by decide
theorem test_decode_len_over : decode .readLen 0 (.byte 0x41) = .ok (.decLenOver 0x41) := by decide
theorem test_decode_len_zero : decode .readLen 0 (.byte 0x00) = .ok (.decLenZero 0) := by decide
theorem test_decode_len_ok : decode .readLen 0 (.byte 0x40) = .ok (.decLenOk 0x40) := by decide
theorem test_decode_payload : decode .readPayload 0 (.byte 0xAA) = .ok (.decPayload 0xAA) := by decide
theorem test_decode_ck_ok : decode .readChecksum 0x10 (.byte 0x10) = .ok (.decCkOk 0x10) := by decide
theorem test_decode_ck_bad : decode .readChecksum 0x10 (.byte 0x11) = .ok (.decCkBad 0x11) := by decide
theorem test_decode_calls :
    (([.decReset, .cksum 1 [2], .encFrame 3 [4], .tlmPack recE7, .tlmUnpack [5], .cmdPack .scram, .cmdUnpack [6],
      .rsmEval 7 8, .rsmFailsafe, .rsmStep [.resetNormal] 9 10 true, .ctrlStep 11 12 false, .commsIter [13]] :
      List Instr).all fun i => (decode .waitStart 0 (encode i)).toOption == some i) = true := by decide

/-! ## The decoder (vectors T1, T3, T4, T6, T13) -/

theorem test_ws_start :
    seen State.dec (exec (.decWsStart 0xAA) State.reset) = some (Decoder.mk .readType 0 0 0 0 []) := by decide
theorem test_ws_noise : seen State.dec (exec (.decWsNoise 0x55) State.reset) = some State.reset.dec := by decide
theorem test_type : seen State.dec (exec (.decType 0x10) (inDecoder .readType 0 0 0 0 [])) =
    some (Decoder.mk .readLen 0x10 0 0 0x10 []) := by decide
theorem test_len_over : seen (fun s => (s.dec, s.out.events)) (exec (.decLenOver 0x41) (inDecoder .readLen 0x10 0 0 0x10 [])) =
    some (Decoder.mk .waitStart 0 0 0 0 [], [.oversize 0x41]) := by decide
theorem test_len_zero : seen State.dec (exec (.decLenZero 0) (inDecoder .readLen 1 0 0 1 [])) =
    some (Decoder.mk .readChecksum 1 0 0 1 []) := by decide
theorem test_len_ok : seen State.dec (exec (.decLenOk 1) (inDecoder .readLen 0x10 0 0 0x10 [])) =
    some (Decoder.mk .readPayload 0x10 1 0 0x11 []) := by decide
theorem test_payload_last : seen State.dec (exec (.decPayload 1) (inDecoder .readPayload 0x10 1 0 0x11 [])) =
    some (Decoder.mk .readChecksum 0x10 1 1 0x10 [(0, 1)]) := by decide
theorem test_payload_more : seen State.dec (exec (.decPayload 1) (inDecoder .readPayload 0xAA 0x10 0 0xBA [])) =
    some (Decoder.mk .readPayload 0xAA 0x10 1 0xBB [(0, 1)]) := by decide
theorem test_payload_boundary_fault :
    exec (.decPayload 1) (inDecoder .readPayload 0x10 1 64 0 []) = .fault .bufferRange := by rfl
theorem test_ck_ok : seen (fun s => (s.dec, s.out.frames)) (exec (.decCkOk 0x10) (inDecoder .readChecksum 0x10 1 1 0x10 [(0, 1)])) =
    some (Decoder.mk .waitStart 0 0 0 0 [(0, 1)], [Frame.mk 0x10 [1]]) := by decide
theorem test_ck_bad : seen (fun s => (s.dec, s.out.events)) (exec (.decCkBad 0x11) (inDecoder .readChecksum 0x10 1 1 0x10 [])) =
    some (Decoder.mk .waitStart 0 0 0 0 [], [.checksum 0x11 0x10]) := by decide
theorem test_dec_reset : seen State.dec (exec .decReset (inDecoder .readPayload 0x10 5 2 0x5D [(0, 3), (1, 0x4B)])) =
    some (Decoder.mk .waitStart 0 0 0 0 [(0, 3), (1, 0x4B)]) := by decide
theorem test_row_not_selected : exec (.decWsStart 0xAA) (inDecoder .readType 0 0 0 0 []) = .refused .notSelected := by rfl

/-! ## Checksum, encoder, payloads (vectors K5, K8, E3, E7, E14, M1, M3 to M5, U6, U9, U12, U13) -/

theorem test_cksum_k5 : seen (fun s => s.out.result) (exec (.cksum 0x10 [3, 0x4B, 0, 0, 0]) State.reset) =
    some (some (.byte 0x5D)) := by decide
theorem test_cksum_k8 : seen (fun s => s.out.result) (exec (.cksum 0x7E ramp) State.reset) =
    some (some (.byte 0x3E)) := by decide
theorem test_enc_frame_e3 : seen (fun s => s.out.result) (exec (.encFrame 0x10 [3, 0x4B, 0, 0, 0]) State.reset) =
    some (some (.bytes [0xAA, 0x10, 5, 3, 0x4B, 0, 0, 0, 0x5D])) := by decide
theorem test_enc_frame_e14 : exec (.encFrame 0x10 (ramp ++ [0])) State.reset = .refused .payloadTooLong := by rfl
theorem test_tlm_pack_e7 : seen (fun s => s.out.result) (exec (.tlmPack recE7) State.reset) =
    some (some (.bytes bytesE7)) := by decide
theorem test_tlm_unpack_m6 : seen (fun s => s.out.result) (exec (.tlmUnpack (bytesE7 ++ [0xDE, 0xAD])) State.reset) =
    some (some (.record recE7)) := by decide
theorem test_tlm_unpack_m3_m4_m5 :
    ([bytesE7.take 13, bytesE7.set 12 3, bytesE7.set 13 0x65].map fun p =>
      seen (fun s => s.out.events) (exec (.tlmUnpack p) State.reset)) =
    [some [.tlmMalformed 13], some [.tlmMalformed 14], some [.tlmMalformed 14]] := by decide
theorem test_cmd_pack : seen (fun s => s.out.result) (exec (.cmdPack (.setPower (-5))) State.reset) =
    some (some (.bytes [3, 0xFB, 0xFF, 0xFF, 0xFF])) := by decide
theorem test_cmd_unpack_u13 : seen (fun s => s.out.result) (exec (.cmdUnpack [3, 0x4B, 0, 0, 0, 9, 9]) State.reset) =
    some (some (.command (.setPower 75))) := by decide
theorem test_cmd_unpack_u6_u8_u9 :
    ([[3, 0x4B, 0, 0], [], [4]].map fun p => seen (fun s => s.out.events) (exec (.cmdUnpack p) State.reset)) =
    [some [.cmdUndersize 4], some [.cmdUndersize 0], some [.cmdUnknown 4]] := by decide

/-! ## The reactor (vectors V2, V5, V8, V10, V11, V18, V19, V22, V24, V27, V30, V31, V33, V34, V39) -/

theorem test_rsm_cmd_scram : seen State.reactor (exec .rsmCmdScram (inReactor .normal 80)) =
    some (Reactor.mk .scram 0) := by decide
theorem test_rsm_cmd_reset_normal : seen State.reactor (exec .rsmCmdResetNormal (inReactor .scram 0)) =
    some (Reactor.mk .normal 50) := by decide
theorem test_rsm_cmd_set_power : ([-5, 250, 0x80000000, 0x7FFFFFFF, 100, 101].map fun v =>
      seen State.reactor (exec (.rsmCmdSetPower v) (inReactor .warning 50))) =
    [0, 100, 0, 100, 100, 100].map fun p => some (Reactor.mk .warning p) := by decide
theorem test_eval_normal : ([(0x42340000, 0), (0x41A00000, 0x3F4CCCCD), (0x41A00000, 0x4000A3D7), (0x7F800000, 0)].map
      fun x : Word × Word => seen State.reactor (exec (.rsmEval x.1 x.2) (inReactor .normal 50))) =
    [some (Reactor.mk .warning 50), some (Reactor.mk .normal 50), some (Reactor.mk .scram 0),
     some (Reactor.mk .scram 0)] := by decide
theorem test_eval_warning : ([(0x422C0000, 0), (0x422B999A, 0), (0xFF800000, 0), (0x41A00000, 0x40200000)].map
      fun x : Word × Word => seen State.reactor (exec (.rsmEval x.1 x.2) (inReactor .warning 50))) =
    [some (Reactor.mk .warning 50), some (Reactor.mk .normal 50), some (Reactor.mk .normal 50),
     some (Reactor.mk .scram 0)] := by decide
theorem test_failsafe : seen (fun s => (s.reactor, s.out.events)) (exec .rsmFailsafe (inReactor .normal 50)) =
    some (Reactor.mk .scram 0, [.sensorFail]) := by decide
theorem test_rsm_step_v18_v19_v27 :
    [seen State.reactor (exec (.rsmStep [.resetNormal] 0x42380000 0 true) (inReactor .scram 0)),
     seen State.reactor (exec (.rsmStep [.setPower 70] 0x41A00000 0 true) (inReactor .scram 0)),
     seen State.reactor (exec (.rsmStep [.resetNormal] 0x41A00000 0 false) (inReactor .normal 50))] =
    [some (Reactor.mk .warning 50), some (Reactor.mk .scram 0), some (Reactor.mk .scram 0)] := by decide
theorem test_rsm_step_v33_v34 :
    ([[.setPower 80, .resetNormal], [.resetNormal, .setPower 80]].map fun c =>
      seen State.reactor (exec (.rsmStep c 0x41A00000 0 true) (inReactor .normal 10))) =
    [some (Reactor.mk .normal 50), some (Reactor.mk .normal 80)] := by decide

/-- TEMP_CLEAR of the example thresholds, and of V43 (60.0 gives 58.0). -/
theorem test_temp_clear : tempClear Config.chosen = 0x422C0000 ∧
    tempClear { Config.chosen with tempWarning := 0x42700000 } = 0x42680000 := by decide

/-- The event codes of R181. -/
theorem test_event_codes : [Event.oversize 65, .checksum 1 2, .unknownType 3, .cmdUndersize 4, .cmdUnknown 4, .sensorFail,
    .tlmChFull 5, .cmdChFull .scram, .tlmMalformed 13].map eventCode = [1, 2, 3, 4, 5, 6, 7, 8, 9] := by decide

/-! ## Sequencing and the frame rows (vectors Q1, Q2, Q4, H2, P3, P6, U12) -/

theorem test_ctrl_step_q1 :
    seen (fun s => (s.reactor, s.sampleId, s.tlmCh, s.out.indicator)) (exec (.ctrlStep 0x42380000 0 true) (inReactor .normal 50)) =
    some (Reactor.mk .warning 50, 1, [recE7], [.warning]) := by decide
theorem test_ctrl_step_q4 :
    seen (fun s => (s.sampleId, s.tlmCh, s.out.events)) (exec (.ctrlStep 0 0 true)
      { State.reset with config := { Config.chosen with tlmChCap := 1 }, tlmCh := [recE7], sampleId := 0xFFFFFFFF }) =
    some (0, [recE7], [.tlmChFull 0xFFFFFFFF]) := by decide
theorem test_comms_iter_p3 :
    seen (fun s => (s.cmdCh, s.out.events)) (exec (.commsIter [0xAA, 0x10, 0x41, 0xAA, 1, 0, 1, 0, 0, 0xAA, 0x10, 1, 1, 0x10])
      State.reset) = some ([.scram], [.oversize 0x41, .unknownType 1]) := by decide
theorem test_comms_iter_p6 :
    seen (fun s => (s.upstream, s.out.tx, s.out.events)) (exec (.commsIter [0xAA, 0x10, 1, 1, 0x10])
      { bridge with upstream := [.setPower 75] }) =
    some ([], [0xAA, 0x10, 5, 3, 0x4B, 0, 0, 0, 0x5D], [.unknownType 0x10]) := by decide
theorem test_frame_u12 : seen State.cmdCh (exec (.frame 0x10 [1, 0xFF, 0xEE]) State.reset) = some [.scram] := by decide
theorem test_telemetry_malformed_m4 : seen (fun s => (s.latest, s.out.events)) (exec (.frame 0x01 (bytesE7.set 12 3)) bridge) =
    some (none, [.tlmMalformed 14]) := by decide
theorem test_telemetry_bridge : seen State.latest (exec (.telemetry recE7) bridge) = some (some recE7) := by decide
theorem test_scram_h1 : seen State.cmdCh (exec .scram State.reset) = some [.scram] := by decide
theorem test_scram_h2 : seen (fun s => (s.cmdCh, s.out.events)) (exec .scram
    { State.reset with config := { Config.chosen with cmdChCap := 1 }, cmdCh := [.resetNormal] }) =
    some ([.resetNormal], [.cmdChFull .scram]) := by decide
theorem test_reset_normal : seen State.cmdCh (exec .resetNormal State.reset) = some [.resetNormal] := by decide
theorem test_set_power : seen State.cmdCh (exec (.setPower (-5)) State.reset) = some [.setPower (-5)] := by decide
theorem test_memory_wf_reset : Memory.wf State.reset.dec.payload = true := by decide
theorem test_step_fetches : seen State.reactor (step (State.reset.withFetchWord 8 0x02)) = some (Reactor.mk .normal 50) := by
  decide

/-! ## Witnesses: states and operands that meet the hypotheses of each statement, clause by clause at the bounds -/

/-- Waiting for the checksum of a frame of 64 bytes (the last one 0x3F). -/
def lastOf64 : State := inDecoder .readChecksum 0x7E 64 64 0x3E [(63, 0x3F)]

/-- Both channels of capacity 1, the command channel full and the telemetry channel full. -/
def full : State :=
  { State.reset with
    config := { Config.chosen with tlmChCap := 1, cmdChCap := 1 }, tlmCh := [recE7], cmdCh := [.resetNormal] }

theorem witness_StepRunsDecodedOperation :
    let s := asking [.invoke (.byte 0xAA), .invoke (.call .decReset)]
    admissible s.config = true ∧ s.pending = [.invoke (.byte 0xAA), .invoke (.call .decReset)] ∧
      decode s.dec.decState s.dec.checksumAcc (.byte 0xAA) = .ok (.decWsStart 0xAA) := by decide
theorem witness_UndecodedBytesStillAct :
    admissible (asking [.invoke (.frame [0x00])]).config = true ∧ decodeFrame [0x00] = .error .truncated ∧
      admissible (asking [.invoke (.command [4])]).config = true ∧
      decodeCommand [4] = .error .unknownCommandId ∧ decodeCommand [] = .error .undersizeCommand := by decide
theorem witness_StepWithoutOperation :
    (admissible (inDecoder .readPayload 1 2 1 3 []).config = true ∧ (inDecoder .readPayload 1 2 1 3 []).pending = []) ∧
      admissible { Config.chosen with tempCritical := 0x42340000 } = false ∧
      admissible { Config.chosen with cmdChCap := 0 } = false ∧
      admissible { Config.chosen with resetState := .scram, resetPower := 1 } = false := by decide
theorem witness_DecodeEncodeRoundTrip :
    (Instr.frame 0x7E ramp).wellFormed = true ∧ selects .waitStart 0 (.frame 0x7E ramp) = true ∧
      (Instr.decLenOk 64).wellFormed = true ∧ selects .readLen 5 (.decLenOk 64) = true ∧
      (Instr.telemetry { recE7 with power := 100 }).wellFormed = true := by decide
theorem witness_DecodedIsWellFormed :
    decode .readLen 0 (.byte 64) = .ok (.decLenOk 64) ∧ ∀ c, Invocation.byte 64 ≠ .call c :=
  ⟨by decide, fun _ h => by cases h⟩
theorem witness_ByteClassesPartition : encode (.decLenOver 65) = .byte 65 ∧ selects .readLen 0 (.decLenOver 65) = true ∧
    selects .readLen 0 (.decLenOk 65) = false := by decide
theorem witness_WaitStartAndReadTypeRows : State.reset.dec.decState = .waitStart ∧ (0xAB : Byte) ≠ 0xAA ∧
    (inDecoder .readType 0 0 0 0 []).dec.decState = .readType := by decide
theorem witness_ReadLenRows : (inDecoder .readLen 0x10 0 0 0x10 []).dec.decState = .readLen ∧
    65 ≤ (65 : Byte).toNat ∧ 65 ≤ (255 : Byte).toNat ∧ 1 ≤ (1 : Byte).toNat ∧ (64 : Byte).toNat ≤ 64 := by decide
theorem witness_PayloadRow :
    let s := inDecoder .readPayload 0x7E 64 63 0 [(62, 1)]
    s.dec.decState = .readPayload ∧ s.dec.idx.toNat < 64 ∧ Memory.wf s.dec.payload = true := by decide
theorem witness_ReadChecksumRows : lastOf64.dec.decState = .readChecksum ∧ lastOf64.dec.len.toNat ≤ 64 ∧
    (0x3F : Byte) ≠ lastOf64.dec.checksumAcc := by decide
theorem witness_RowsStopOutsideTheirDomain :
    (encode (.decType 1) = .byte 1 ∧ selects State.reset.dec.decState State.reset.dec.checksumAcc (.decType 1) = false) ∧
    ((inDecoder .readPayload 0 65 64 0 []).dec.decState = .readPayload ∧
      64 ≤ (inDecoder .readPayload 0 65 64 0 []).dec.idx.toNat) ∧
    ((inDecoder .readChecksum 0 65 65 0 []).dec.decState = .readChecksum ∧
      65 ≤ (inDecoder .readChecksum 0 65 65 0 []).dec.len.toNat) ∧ 64 < (ramp ++ [0]).length := by decide
theorem witness_EveryByteCompletes :
    admissible lastOf64.config = true ∧ decoderOk lastOf64.dec ∧
      ({ lastOf64 with pending := [.invoke (.byte 0x3E)] } : State).pending = [.invoke (.byte 0x3E)] := by decide
theorem witness_ByteStepsFeedTheDecoder :
    let s := asking ([0xAA, 0x10, 0x41].map (fun b => HostEvent.invoke (.byte b)) ++ [.powerOn])
    admissible s.config = true ∧
      s.pending = [0xAA, 0x10, 0x41].map (fun b => HostEvent.invoke (.byte b)) ++ [.powerOn] ∧
      decFeed s.dec [0xAA, 0x10, 0x41] = .ok (Decoder.mk .waitStart 0 0 0 0 [], [], [.oversize 0x41]) :=
  ⟨by decide, rfl, rfl⟩
theorem witness_AccumulatorIsRunningXor :
    State.reset.dec.decState = .waitStart ∧ Memory.wf State.reset.dec.payload = true ∧ (64 : Byte).toNat ≤ 64 ∧
      ramp.length ≤ (64 : Byte).toNat ∧ ramp.length = (64 : Byte).toNat := by decide
theorem witness_BytesConsumedPerFrame :
    idle State.reset.dec ∧ Memory.wf State.reset.dec.payload = true ∧ 64 < (65 : Byte).toNat ∧
      (64 : Byte).toNat ≤ 64 ∧ (ramp ++ [0]).length = (64 : Byte).toNat + 1 ∧ [(7 : Byte)].length = (0 : Byte).toNat + 1 := by
  decide
theorem witness_IdleAgainWithin68Bytes : decoderOk (inDecoder .readType 0 0 0 0 []).dec ∧
    68 ≤ (frameBytes 0x7E ramp).length := by decide
theorem witness_FrameRoundTrip : idle State.reset.dec ∧ Memory.wf State.reset.dec.payload = true ∧ ramp.length ≤ 64 := by
  decide
theorem witness_ResynchronisesAfterBadChecksum :
    idle State.reset.dec ∧ Memory.wf State.reset.dec.payload = true ∧ [(1 : Byte)].length ≤ 64 ∧ ramp.length ≤ 64 ∧
      (0x11 : Byte) ≠ checksum 0x10 [1] := by decide
theorem witness_OversizeFrameSkipped :
    idle State.reset.dec ∧ Memory.wf State.reset.dec.payload = true ∧ 64 < (65 : Byte).toNat ∧ ramp.length ≤ 64 ∧
      (0xAA : Byte) ∉ ramp := by decide
theorem witness_IdleRegistersUnobservable :
    (inDecoder .waitStart 1 2 3 4 [(5, 6)]).dec.decState = .waitStart ∧ State.reset.dec.decState = .waitStart ∧
      Memory.wf [(5, 6)] = true ∧ Memory.wf State.reset.dec.payload = true := by decide
theorem witness_CorruptionCaughtUnlessItCancels :
    idle State.reset.dec ∧ Memory.wf State.reset.dec.payload = true ∧ [(1 : Byte), 2].length ≤ 64 ∧
      [(2 : Byte), 1].length = [(1 : Byte), 2].length ∧
      (List.zipWith (· ^^^ ·) [(1 : Byte), 2] [2, 1]).foldl (· ^^^ ·)
        ((0x10 ^^^ 0x10) ^^^ (checksum 0x10 [1, 2] ^^^ 0x11)) = 0 ∧
      (List.zipWith (· ^^^ ·) [(1 : Byte), 2] [1, 3]).foldl (· ^^^ ·)
        ((0x10 ^^^ 0x10) ^^^ (checksum 0x10 [1, 2] ^^^ 0x11)) ≠ 0 := by decide
theorem witness_CutOfTheStreamDoesNotMatter :
    ∃ t, exec (.commsIter ([0xAA, 0x10, 1] ++ [1, 0x10])) State.reset = .next t := ⟨_, rfl⟩
theorem witness_ChecksumValue : ramp.length ≤ 64 ∧ [(1 : Byte), 2].Perm [2, 1] := by decide
theorem witness_EncoderLayout : ramp.length ≤ 64 ∧ 64 < (ramp ++ [0]).length := by decide
theorem witness_PackLayouts : recE7.state = .warning ∧ { recE7 with state := .normal }.state = .normal ∧
    { recE7 with state := .scram }.state = .scram := by decide
theorem witness_TelemetryUnpack :
    (bytesE7.take 13).length < 14 ∧ 3 ≤ ((bytesE7.set 12 3).getD 12 0).toNat ∧
      101 ≤ ((bytesE7.set 13 101).getD 13 0).toNat ∧ 14 ≤ bytesE7.length ∧
      ((bytesE7.set 12 2).getD 12 0).toNat ≤ 2 ∧ ((bytesE7.set 13 100).getD 13 0).toNat ≤ 100 := by decide
theorem witness_CommandUnpack : [(0 : Byte), 0, 0].length < 4 ∧ (4 : Byte) ≠ 1 ∧ (4 : Byte) ≠ 2 ∧ (4 : Byte) ≠ 3 := by
  decide
theorem witness_PayloadLayerRoundTrips : { recE7 with power := 100 }.power.toNat ≤ 100 := by decide
theorem witness_EvaluationRows :
    (isCrit Config.chosen 0x42480000 0, isCrit Config.chosen 0x42340000 0, isWarn Config.chosen 0x42340000 0,
      isWarn Config.chosen 0x4233FEFA 0, isClear Config.chosen 0x422C0000, isClear Config.chosen 0x422B999A) =
      (true, false, true, false, false, true) ∧
    (inReactor .normal 50).reactor.state = .normal ∧ (inReactor .warning 50).reactor.state = .warning ∧
      (inReactor .scram 0).reactor.state = .scram := by decide
theorem witness_BinaryComparisonsAndTempClear : f32IsFinite Config.chosen.tempWarning = true ∧
    f32IsFinite { Config.chosen with tempWarning := 0xFF7FFFFF }.tempWarning = true ∧
    f32IsFinite 0x7F7FFFFF = true ∧ f32IsFinite 0x80000000 = true ∧
    f32IsNaN 0x7F800001 = true ∧ f32IsNaN 0x7F800000 = false := by decide
theorem witness_BatchLastWriterWins : ∀ x ∈ [Command.setPower 3, .setPower 4], ∃ v, x = .setPower v := by
  intro x hx
  rcases List.mem_cons.mp hx with rfl | hx
  · exact ⟨_, rfl⟩
  · exact ⟨4, List.mem_singleton.mp hx⟩
theorem witness_OnlyResetNormalLeavesScram :
    let s := { inReactor .scram 0 with cmdCh := [.setPower 70] }
    s.reactor.state = .scram ∧ .resetNormal ∉ s.cmdCh := by decide
theorem witness_ReactorInvariantsHoldAfterStep : (inReactor .warning 100).reactor.power ≤ 100 := by decide
theorem witness_ResetNormalIsReevaluated :
    isCrit Config.chosen 0x424C0000 0 = true ∧ isCrit Config.chosen 0x42380000 0 = false ∧
      isWarn Config.chosen 0x42380000 0 = true ∧ isWarn Config.chosen 0x41A00000 0 = false := by decide
theorem witness_HysteresisExample :
    let s := inReactor .warning 50
    s.config.tempWarning = 0x42340000 ∧ s.config.tempCritical = 0x42480000 ∧ s.reactor.state = .warning ∧
      f32Gt 0x40000000 0x40000000 = false := by decide
theorem witness_CoolQuakeAlternates :
    let s := inReactor .normal 50
    s.reactor.state = .normal ∧ isCrit s.config 0x41A00000 0x3F800000 = false ∧ f32Gt 0x3F800000 0x3F4CCCCD = true ∧
      f32Lt 0x41A00000 (tempClear s.config) = true := by decide
theorem witness_ControlStepEffects : State.reset.tlmCh.length < State.reset.config.tlmChCap ∧
    full.config.tlmChCap ≤ full.tlmCh.length := by decide
/-- The reset state, on either side, after four bytes of a frame of one payload byte `x`. -/
def afterFour (s : State) (t x : Byte) : State := { s with dec := Decoder.mk .readChecksum t 1 1 (t ^^^ 1 ^^^ x) [(0, x)] }

theorem witness_CommsIterationHandlesEveryByte :
    decoderOk lastOf64.dec ∧ decStep State.reset.dec 0x55 = .ok { dec := State.reset.dec } ∧
    (decoderOk (afterFour State.reset 0x10 1).dec ∧
      ((decStep (afterFour State.reset 0x10 1).dec 0x10).toOption.bind DecResult.frame) = some (Frame.mk 0x10 [1]) ∧
      unpackCommand [1] = .ok .scram ∧ State.reset.side = .reactor ∧
      State.reset.cmdCh.length < State.reset.config.cmdChCap ∧ full.config.cmdChCap ≤ full.cmdCh.length) ∧
    unpackCommand [4] = .error (.cmdUnknown 4) ∧
    (unpackTelemetry bytesE7 = .ok recE7 ∧ unpackTelemetry [1] = .error (.tlmMalformed 1) ∧ bridge.side = .bridge) ∧
    (0x20 : Byte) ≠ recognised bridge.side ∧ (0x01 : Byte) ≠ recognised State.reset.side := by
  refine ⟨by decide, rfl, by decide, by decide, by decide, by decide⟩
theorem witness_OutboundFramesOldestFirst : full.side = .reactor ∧ bridge.side = .bridge := by decide
theorem witness_CommandDeliveredEndToEnd :
    State.reset.side = .reactor ∧ idle State.reset.dec ∧ Memory.wf State.reset.dec.payload = true ∧
      State.reset.cmdCh.length < State.reset.config.cmdChCap ∧
      full.side = .reactor ∧ idle full.dec ∧ Memory.wf full.dec.payload = true ∧
      full.config.cmdChCap ≤ full.cmdCh.length := by decide
theorem witness_TelemetryDeliveredEndToEnd :
    full.side = .reactor ∧ full.tlmCh = [] ++ [recE7] ∧ (∀ x ∈ full.tlmCh, x.power ≤ 100) ∧ bridge.side = .bridge ∧
      idle bridge.dec ∧ Memory.wf bridge.dec.payload = true := by decide
theorem witness_NamedCommandFrames :
    (Instr.setPower 75 = .setPower 75 ∧ Command.setPower 75 = .setPower 75) ∧
      (State.reset.side = .reactor ∧ idle State.reset.dec ∧ State.reset.cmdCh.length < State.reset.config.cmdChCap) ∧
      (full.side = .reactor ∧ idle full.dec ∧ full.config.cmdChCap ≤ full.cmdCh.length) ∧
      (bridge.side = .bridge ∧ idle bridge.dec ∧ Memory.wf bridge.dec.payload = true) := by decide
theorem witness_ScramFrameScramsNextControlStep :
    let s := { State.reset with cmdCh := [.resetNormal] }
    s.side = .reactor ∧ idle s.dec ∧ Memory.wf s.dec.payload = true ∧ s.cmdCh.length < s.config.cmdChCap := by decide
theorem witness_AnyFrameCompletes :
    encode (.frame 0x7E ramp) = .frame (frameBytes 0x7E ramp) ∧ (Instr.frame 0x7E ramp).wellFormed = true ∧
      decoderOk (inDecoder .readType 0 0 0 0 []).dec ∧ 64 < (ramp ++ [0]).length := ⟨rfl, by decide, by decide, by decide⟩
theorem witness_FramesDroppedAboveTheDecoder :
    idle State.reset.dec ∧ Memory.wf State.reset.dec.payload = true ∧ ramp.length ≤ 64 ∧
      (0x01 : Byte) ≠ recognised State.reset.side ∧ (0x10 : Byte) ≠ recognised bridge.side ∧
      State.reset.side = .reactor ∧ [(3 : Byte), 0, 0, 0].length ≤ 64 ∧
      unpackCommand [3, 0, 0, 0] = .error (.cmdUndersize 4) ∧
      bridge.side = .bridge ∧ idle bridge.dec ∧ Memory.wf bridge.dec.payload = true ∧
      unpackTelemetry (bytesE7.take 13) = .error (.tlmMalformed 13) ∧
      unpackTelemetry (bytesE7.set 12 3) = .error (.tlmMalformed 14) ∧
      unpackTelemetry (bytesE7.set 13 101) = .error (.tlmMalformed 14) := by decide
theorem witness_TelemetryFrame :
    idle State.reset.dec ∧ Memory.wf State.reset.dec.payload = true ∧ recE7.power ≤ 100 ∧ State.reset.side = .reactor ∧
      idle bridge.dec ∧ Memory.wf bridge.dec.payload = true ∧ bridge.side = .bridge := by decide
theorem witness_PowerOnReset :
    admissible { lastOf64 with pending := [.powerOn] }.config = true ∧
      ({ lastOf64 with pending := [.powerOn] } : State).pending = [.powerOn] := by decide
theorem witness_BridgeHostEvents :
    admissible bridge.config = true ∧
      ({ bridge with pending := [.takeLatest], latest := some recE7 } : State).latest = some recE7 ∧
      ({ bridge with pending := [.takeLatest] } : State).latest = none ∧
      ({ bridge with pending := [.upstream .scram] } : State).pending = [.upstream .scram] := by decide
theorem witness_OwnershipOfState :
    (∃ t, exec (.commsIter [0xAA]) State.reset = .next t) ∧ ofControlAgent (.commsIter [0xAA]) = false ∧
      (∃ t, exec (.ctrlStep 0 0 true) State.reset = .next t) ∧ ofControlAgent (.ctrlStep 0 0 true) = true ∧
      (∃ t, exec (.cksum 1 [2]) State.reset = .next t) ∧ isPure (.cksum 1 [2]) = true :=
  ⟨⟨_, rfl⟩, rfl, ⟨_, rfl⟩, rfl, ⟨_, rfl⟩, rfl⟩
theorem witness_EveryStepKeepsInvariants :
    stateOk (asking [.invoke (.call (.ctrlStep 0 0 true))]) ∧
      ∃ t, step (asking [.invoke (.call (.ctrlStep 0 0 true))]) = .next t := ⟨by decide, _, rfl⟩
theorem witness_ScramMeansPowerZero :
    let s := { inReactor .scram 0 with pending := [.invoke (.call (.rsmEval 0 0))] }
    stateOk s ∧ scramPowerZero s.reactor ∧
      (∀ v rest w, s.pending = .invoke v :: rest →
        decode s.dec.decState s.dec.checksumAcc v ≠ .ok (.rsmCmdSetPower w)) ∧ ∃ t, step s = .next t := by
  refine ⟨by decide, by decide, ?_, _, rfl⟩
  intro v rest w h
  cases h
  exact fun h => by cases h
theorem witness_NothingIsFatal :
    let s := asking [.invoke (.call (.encFrame 0x7E ramp))]
    stateOk s ∧ ∀ v rest i, s.pending = .invoke v :: rest →
      decode s.dec.decState s.dec.checksumAcc v = .ok i → i.wellFormed = true := by
  refine ⟨by decide, ?_⟩
  intro v rest i h hd
  cases h
  cases hd
  decide

end Sys2Proof.Tests
end

section
/-! The rows of the decoder table (40_decoder R86 to R96). A selected row writes the decoder, its frame and its event
and nothing else (`byteOp_selected`); the two rows that use the buffer need the cell, or the cells, to exist. -/

namespace Sys2Proof

/-! ## Reading a cell through the bound -/

theorem Memory.read_of_lt {m : Memory} {a : Nat} (ha : a < maxPayload) : m.read a = some (m.get a) := if_pos ha

/-- Whether a cell exists does not depend on the buffer, so buffers that agree in a cell read alike there. -/
theorem Memory.read_congr {m m' : Memory} {a : Nat} (h : m'.get a = m.get a) : m'.read a = m.read a := by
  simp only [Memory.read, h]

namespace Machine

/-! ## What a row leaves behind -/

/-- A selected row that completes writes the decoder and puts its frame and its event on a clean output. -/
theorem byteOp_selected {s : State} {selected : Bool} {row : Except Fault DecResult} {r : DecResult}
    (hsel : selected = true) (hrow : row = .ok r) :
    s.byteOp selected row =
      .next { s with dec := r.dec, out := { frames := r.frame.toList, events := r.event.toList } } := by
  subst hsel hrow
  rfl

/-- The buffer row inside the buffer (R93). -/
theorem rowPayload_of_lt {d : Decoder} (b : Byte) (hidx : d.idx.toNat < maxPayload) :
    rowPayload d b = .ok { dec := { d with
      payload := d.payload.put d.idx.toNat b
      checksumAcc := d.checksumAcc ^^^ b
      idx := d.idx + 1
      decState := if d.idx + 1 = d.len then .readChecksum else .readPayload } } := by
  simp only [rowPayload, Memory.write_of_lt hidx]

/-- The emitting row with a length that the buffer holds (R95): the frame's payload is the first `len` cells. -/
theorem rowCkOk_of_readFirst {d : Decoder} {p : List Byte} (hp : d.payload.readFirst d.len.toNat = some p) :
    rowCkOk d = .ok { dec := d.reset, frame := some { typ := d.msgType, payload := p } } := by
  simp only [rowCkOk, hp]

/-! ## The rows -/

/-- Settles O8. -/
theorem waitStartAndReadTypeRows : Obligations.WaitStartAndReadTypeRows := by
  intro s
  refine ⟨fun hs => ⟨?start, fun b hb => ?noise⟩, fun hs b => ?type⟩
  case start => exact byteOp_selected (by simp [selects, hs, startMarker]) rfl
  case noise =>
    have hmarker : (b != startMarker) = true := bne_iff_ne.mpr hb
    exact byteOp_selected (by simp [selects, hs, hmarker]) rfl
  case type => exact byteOp_selected (by simp [selects, hs]) rfl

/-- Settles O9; in DEC.LEN_ZERO the fold of the byte 0 leaves the accumulator as it is. -/
theorem readLenRows : Obligations.ReadLenRows := by
  intro s b hs
  refine ⟨fun hover => ?oversize, fun hzero => ?zero, fun hpos hle => ?fits⟩
  case oversize =>
    have hlong : maxPayload < b.toNat := hover
    exact byteOp_selected (by simp [selects, hs, hlong]) rfl
  case zero =>
    subst hzero
    have hfold : s.dec.checksumAcc ^^^ 0 = s.dec.checksumAcc := BitVec.xor_zero
    have hrow : rowLenZero s.dec 0 = .ok { dec := { s.dec with len := 0, decState := .readChecksum } } := by
      simp only [rowLenZero, hfold]
    exact byteOp_selected (by simp [selects, hs]) hrow
  case fits =>
    have hshort : b.toNat ≤ maxPayload := hle
    have hnonzero : 0 < b.toNat := hpos
    exact byteOp_selected (by simp only [selects, hs, hshort, hnonzero, beq_self_eq_true, decide_true, Bool.and_self]) rfl

/-- Settles O10: the buffer after the row is the one `Memory.write` gives, and `Memory.write_spec` says what that is. -/
theorem payloadRow : Obligations.PayloadRow := by
  intro s b hs hidx hwf
  obtain ⟨-, hwf', hsame, hother⟩ := Memory.write_spec hwf (Memory.write_of_lt (b := b) hidx)
  refine ⟨s.dec.payload.put s.dec.idx.toNat b, ?effect, hwf', ?cell, fun a ha => Memory.read_congr (hother a ha)⟩
  case effect => exact byteOp_selected (by simp [selects, hs]) (rowPayload_of_lt b hidx)
  case cell => rw [Memory.read_of_lt hidx, hsame]

/-- Settles O11: `Memory.readFirst_spec` says which cells the emitted payload holds. -/
theorem readChecksumRows : Obligations.ReadChecksumRows := by
  intro s hs
  refine ⟨fun hlen => ?ok, fun b hb => ?bad⟩
  case ok =>
    have hp := Memory.readFirst_of_le (m := s.dec.payload) hlen
    obtain ⟨hle, hlength, hcells⟩ := Memory.readFirst_spec hp
    refine ⟨_, byteOp_selected (by simp [selects, hs]) (rowCkOk_of_readFirst hp), hlength, fun k hk => ?_⟩
    rw [hcells k hk, Memory.read_of_lt (hk.trans_le hle)]
  case bad => exact byteOp_selected (by simp [selects, hs, hb]) rfl

/-- Settles O12: DEC.RESET is selected by no byte; its meaning is the reset of the decoder on a clean output. -/
theorem decoderResetOperation : Obligations.DecoderResetOperation := fun _ => rfl

end Machine

end Sys2Proof
end

section
/-! The checksum and the frame encoder (41_encoder_payload R110 to R112). Within the 64 bytes each is a pure call: the
answer is the operation's only output and no other field of the state changes (`quiet_returning`). -/

namespace Sys2Proof

/-! ## The checksum -/

/-- On the empty payload the length is 0 and nothing is folded, so the seed is the type. -/
theorem checksum_nil (t : Byte) : checksum t [] = t := BitVec.xor_zero

/-- A rearrangement keeps the length, so the seed; and XOR folds the bytes alike in every order. -/
theorem checksum_perm (t : Byte) {p q : List Byte} (h : p.Perm q) : checksum t p = checksum t q := by
  unfold checksum
  rw [h.length_eq, h.foldl_eq]

namespace Machine

/-! ## A pure call and the bound of 64 bytes -/

/-- Answering on a clean output writes the output and nothing else (R110). -/
theorem State.quiet_returning (s : State) (r : CallResult) :
    s.quiet.returning r = { s with out := { result := some r } } := rfl

theorem exec_cksum_of_le (s : State) (t : Byte) {p : List Byte} (hp : p.length ≤ maxPayload) :
    exec (.cksum t p) s = .next (s.quiet.returning (.byte (checksum t p))) := if_pos hp

theorem exec_encFrame_of_le (s : State) (t : Byte) {p : List Byte} (hp : p.length ≤ maxPayload) :
    exec (.encFrame t p) s = .next (s.quiet.returning (.bytes (frameBytes t p))) := if_pos hp

theorem exec_encFrame_of_lt (s : State) (t : Byte) {p : List Byte} (hp : maxPayload < p.length) :
    exec (.encFrame t p) s = .refused .payloadTooLong := if_neg hp.not_ge

/-! ## The calls -/

/-- Settles O25: the answer is `checksum`, which is by definition the fold of R111. -/
theorem checksumValue : Obligations.ChecksumValue := by
  intro s t p
  refine ⟨fun hp => ?fold, checksum_nil t, fun _ hq => checksum_perm t hq⟩
  case fold => rw [exec_cksum_of_le s t hp, State.quiet_returning, checksum]

/-- Settles O26: the answer is `frameBytes`, the layout of R112; a payload that the length byte may not name is refused. -/
theorem encoderLayout : Obligations.EncoderLayout := by
  intro s t p
  refine ⟨fun hp => ?layout, fun hp => exec_encFrame_of_lt s t hp⟩
  case layout => rw [exec_encFrame_of_le s t hp, State.quiet_returning, frameBytes, startMarker]

end Machine

end Sys2Proof
end

section
/-! The reactor state machine (42_reactor R130 to R146). Every operation of its own rows answers the reactor a pure
function gives, on a clean output (`reacting`); a run of them is then a run of those functions, which is how RSM.STEP
becomes a composition. -/

namespace Sys2Proof.Machine

/-! ## The reactor replaced -/

/-- The state with another reactor and a clean output: all that a command row or an evaluation writes. Where it is
the reactor the state already has, only the outputs go. -/
def State.reacting (s : State) (r : Reactor) : State := { s.quiet with reactor := r }

@[simp] theorem State.reacting_config (s : State) (r : Reactor) : (s.reacting r).config = s.config := rfl
@[simp] theorem State.reacting_reactor (s : State) (r : Reactor) : (s.reacting r).reactor = r := rfl
@[simp] theorem State.reacting_reacting (s : State) (r r' : Reactor) :
    (s.reacting r).reacting r' = s.reacting r' := rfl

@[simp] theorem State.noteSensor_true (s : State) : s.noteSensor true = s := rfl
@[simp] theorem State.noteSensor_false (s : State) : s.noteSensor false = s.raise .sensorFail := rfl

/-! ## The meaning of each row -/

theorem exec_commandInstr (c : Command) (s : State) :
    exec (commandInstr c) s = .next (s.reacting (s.reactor.apply c)) := by
  cases c <;> rfl

theorem exec_rsmEval (temp accel : Word) (s : State) :
    exec (.rsmEval temp accel) s = .next (s.reacting (s.reactor.eval s.config temp accel)) := rfl

theorem exec_rsmFailsafe (s : State) :
    exec .rsmFailsafe s = .next ((s.reacting s.reactor.enterScram).raise .sensorFail) := rfl

theorem exec_rsmStep (cmds : List Command) (temp accel : Word) (ok : Bool) (s : State) :
    exec (.rsmStep cmds temp accel ok) s =
      .next ((s.reacting (s.reactor.step s.config cmds temp accel ok)).noteSensor ok) := rfl

/-- A control step makes one reactor step on the drained commands; reporting the sample touches neither the reactor nor
the command channel (R160). -/
theorem exec_ctrlStep_reactor (temp accel : Word) (ok : Bool) (s : State) :
    ∃ t, exec (.ctrlStep temp accel ok) s = .next t ∧
      t.reactor = s.reactor.step s.config s.cmdCh temp accel ok ∧ t.cmdCh = [] :=
  ⟨_, rfl, by simp, by simp⟩

/-! ## The two branches of a reactor step (R145, R146) -/

theorem Reactor.step_sensorOk (c : Config) (cmds : List Command) (temp accel : Word) (r : Reactor) :
    r.step c cmds temp accel true = (r.applyAll cmds).eval c temp accel := rfl

/-- With the sensor failed neither the commands nor the sample is read. -/
theorem Reactor.step_sensorFailed (c : Config) (cmds : List Command) (temp accel : Word) (r : Reactor) :
    r.step c cmds temp accel false = r.enterScram := rfl

/-- A failed step is the fail-safe operation, event included. -/
theorem exec_rsmStep_sensorFailed (cmds : List Command) (temp accel : Word) (s : State) :
    exec (.rsmStep cmds temp accel false) s = exec .rsmFailsafe s := by
  rw [exec_rsmStep, exec_rsmFailsafe, Reactor.step_sensorFailed, State.noteSensor_false]

/-! ## Command operations one after another, then one evaluation -/

theorem Reactor.applyAll_cons (r : Reactor) (c : Command) (cs : List Command) :
    r.applyAll (c :: cs) = (r.apply c).applyAll cs := rfl

/-- An operation that completes is followed by the rest of its run. -/
theorem execAll_cons_of_next {i : Instr} {is : List Instr} {s t : State} (h : exec i s = .next t) :
    execAll (i :: is) s = execAll is t := by
  simp only [execAll, h]

/-- The commands pass the reactor on to each other, and the evaluation takes what they leave; of the states between, only
the reactor is visible at the end. -/
theorem execAll_commands_rsmEval (cmds : List Command) (temp accel : Word) (s : State) :
    execAll (cmds.map commandInstr ++ [.rsmEval temp accel]) s =
      .next (s.reacting ((s.reactor.applyAll cmds).eval s.config temp accel)) := by
  induction cmds generalizing s with
  | nil => exact execAll_cons_of_next (exec_rsmEval temp accel s)
  | cons c cs ih =>
    rw [List.map_cons, List.cons_append, execAll_cons_of_next (exec_commandInstr c s), ih]
    simp only [State.reacting_reactor, State.reacting_config, State.reacting_reacting, Reactor.applyAll_cons]

/-- Settles O36: the failed branch is the fail-safe; the other is the run of the command rows and one evaluation. -/
theorem reactorStepIsComposition : Obligations.ReactorStepIsComposition := by
  intro s cmds temp accel
  refine ⟨exec_rsmStep_sensorFailed cmds temp accel s, _, ?step, execAll_commands_rsmEval cmds temp accel s⟩
  case step => rw [exec_rsmStep, Reactor.step_sensorOk, State.noteSensor_true]

/-! ## The commands (R132 to R134) -/

/-- Settles O32: no command reads the state it replaces, and the power set is the clamp of the signed operand. -/
theorem commandsActUnconditionally : Obligations.CommandsActUnconditionally := fun s v =>
  ⟨exec_commandInstr .scram s, exec_commandInstr .resetNormal s,
    clampPower v, exec_commandInstr (.setPower v) s, clampPower_toNat v⟩

/-! ## The rows of the evaluation (R136 to R142)

The row of Scram is `eval_scram`. -/

section EvalRows

variable {c : Config} {temp accel : Word} {r : Reactor}

/-- A critical sample ends in (Scram, 0) from every state: from Normal and Warning by their first rows, from Scram by its
only one. -/
theorem eval_of_isCrit (hc : isCrit c temp accel = true) : r.eval c temp accel = { state := .scram, power := 0 } := by
  unfold Reactor.eval
  split
  · rw [if_pos hc]; rfl
  · rw [if_pos hc]; rfl
  · next hs => rw [hs]

theorem eval_normal (hs : r.state = .normal) (hc : isCrit c temp accel = false) :
    r.eval c temp accel = if isWarn c temp accel then { r with state := .warning } else r := by
  simp [Reactor.eval, hs, hc]

theorem eval_warning (hs : r.state = .warning) (hc : isCrit c temp accel = false) :
    r.eval c temp accel = if isClear c temp then { r with state := .normal } else r := by
  simp [Reactor.eval, hs, hc]

end EvalRows

/-- An evaluation whose row is known answers that row's reactor. -/
theorem exec_rsmEval_of_eval {temp accel : Word} {s : State} {r : Reactor}
    (h : s.reactor.eval s.config temp accel = r) : exec (.rsmEval temp accel) s = .next (s.reacting r) := by
  rw [exec_rsmEval, h]

/-- Settles O33: the written-out conditions are those of the model, and each row is read off `Reactor.eval`. -/
theorem evaluationRows : Obligations.EvaluationRows := by
  intro s temp accel crit warn clear hcrit hwarn hclear
  obtain rfl : crit = isCrit s.config temp accel := hcrit
  obtain rfl : warn = isWarn s.config temp accel := hwarn
  obtain rfl : clear = isClear s.config temp := hclear
  refine ⟨fun _ hc => ?normalCrit, fun hs hc hw => ?normalWarn, fun hs hc hw => ?normalStays,
    fun _ hc => ?warningCrit, fun hs hc hk => ?warningClear, fun hs hc hk => ?warningStays, fun hs => ?scramStays⟩
  case normalCrit => exact exec_rsmEval_of_eval (eval_of_isCrit hc)
  case normalWarn => exact exec_rsmEval_of_eval ((eval_normal hs hc).trans (if_pos hw))
  case normalStays => exact exec_rsmEval_of_eval ((eval_normal hs hc).trans (if_neg (by simp [hw])))
  case warningCrit => exact exec_rsmEval_of_eval (eval_of_isCrit hc)
  case warningClear => exact exec_rsmEval_of_eval ((eval_warning hs hc).trans (if_pos hk))
  case warningStays => exact exec_rsmEval_of_eval ((eval_warning hs hc).trans (if_neg (by simp [hk])))
  case scramStays => exact exec_rsmEval_of_eval (eval_scram hs)

/-! ## The fail-safe (R145) -/

/-- Settles O35: all three operations enter Scram without reading commands or sample. -/
theorem failsafeDominates : Obligations.FailsafeDominates := by
  intro s cmds temp accel
  obtain ⟨t, ht, hreactor, hcmds⟩ := exec_ctrlStep_reactor temp accel false s
  refine ⟨exec_rsmFailsafe s, ?step, t, ht, ?scram, hcmds⟩
  case step => rw [exec_rsmStep_sensorFailed]; exact exec_rsmFailsafe s
  case scram => rw [hreactor, Reactor.step_sensorFailed]; rfl

end Sys2Proof.Machine
end

section
/-! The decoder of invocations (30_encoding R61 to R78). What an operation is written as, by format, and what each
format decodes to: `frameRow_cases` says which row names a frame, `classify_of_selects` which row a byte selects. -/

namespace Sys2Proof

/-! ## The row of a frame -/

/-- The codes of the states are the bytes up to 2 (R68). -/
theorem ReactorState.ofCode_isSome (b : Byte) : (ReactorState.ofCode b).isSome = decide (b ≤ 2) := by
  unfold ReactorState.ofCode
  split_ifs with h0 h1 h2
  · simp [h0]
  · simp [h1]
  · simp [h2]
  · exact (decide_eq_false (by bv_omega)).symm

/-- A record is read wherever state code and power are assigned values (R79). -/
theorem telemetryFields_isSome (p : List Byte) :
    (telemetryFields p).isSome = (decide (p.getD 12 0 ≤ 2) && decide (p.getD 13 0 ≤ powerMax)) := by
  rw [← ReactorState.ofCode_isSome, telemetryFields]
  cases ReactorState.ofCode (p.getD 12 0) with
  | none => rfl
  | some st =>
    dsimp only
    split_ifs with hp
    · exact (decide_eq_true hp).symm
    · exact (decide_eq_false hp).symm

/-- The row of a frame: FRAME where no more specific row names it, and else one of those rows (R61, R66, R71). -/
theorem frameRow_cases (t : Byte) (p : List Byte) :
    (namedFrame t p = false ∧ frameRow t p = .frame t p) ∨
    (namedFrame t p = true ∧ (frameRow t p = .scram ∨ frameRow t p = .resetNormal ∨
      (∃ v, frameRow t p = .setPower v) ∨ ∃ r, r.power ≤ powerMax ∧ frameRow t p = .telemetry r)) := by
  unfold frameRow
  by_cases hcmd : t = typeCommand
  · have htlm : t ≠ typeTelemetry := by rw [hcmd]; decide
    rw [if_pos hcmd]
    split_ifs with hscram hreset hset
    · exact Or.inr ⟨by simp [namedFrame, hcmd, hscram], Or.inl rfl⟩
    · exact Or.inr ⟨by simp [namedFrame, hcmd, hreset], Or.inr (Or.inl rfl)⟩
    · obtain ⟨hlen, hid⟩ := hset
      exact Or.inr ⟨by simp only [namedFrame, hcmd, hlen, hid]; simp, Or.inr (Or.inr (Or.inl ⟨_, rfl⟩))⟩
    · refine Or.inl ⟨?_, rfl⟩
      rw [not_and] at hset
      simp only [namedFrame, Bool.or_eq_false_iff, Bool.and_eq_false_iff, beq_eq_false_iff_ne]
      grind
  · rw [if_neg hcmd]
    by_cases htlm : t = typeTelemetry ∧ p.length = tlmPayloadLen
    · obtain ⟨ht, hlen⟩ := htlm
      have hsome := telemetryFields_isSome p
      rw [if_pos ⟨ht, hlen⟩]
      cases hr : telemetryFields p with
      | none =>
        refine Or.inl ⟨?_, rfl⟩
        rw [hr] at hsome
        simp only [namedFrame, Bool.and_assoc, ← hsome]
        simp [hcmd]
      | some r =>
        refine Or.inr ⟨?_, Or.inr (Or.inr (Or.inr ⟨r, Machine.telemetryFields_power hr, rfl⟩))⟩
        rw [hr] at hsome
        simp only [namedFrame, Bool.and_assoc, ← hsome]
        simp [ht, hlen]
    · rw [if_neg htlm]
      refine Or.inl ⟨?_, rfl⟩
      simp only [namedFrame, Bool.or_eq_false_iff, Bool.and_eq_false_iff, beq_eq_false_iff_ne]
      grind

/-- The row of a frame of at most 64 payload bytes is well formed, and selected in every state of the decoder. -/
theorem frameRow_wellFormed {t : Byte} {p : List Byte} (hp : p.length ≤ maxPayload) (st : DecState) (acc : Byte) :
    (frameRow t p).wellFormed = true ∧ selects st acc (frameRow t p) = true := by
  rcases frameRow_cases t p with ⟨hn, h⟩ | ⟨-, h | h | ⟨v, h⟩ | ⟨r, hr, h⟩⟩ <;> rw [h]
  · exact ⟨by simp [Instr.wellFormed, hp, hn], rfl⟩
  · exact ⟨rfl, rfl⟩
  · exact ⟨rfl, rfl⟩
  · exact ⟨rfl, rfl⟩
  · exact ⟨decide_eq_true hr, rfl⟩

/-- A well-formed operation written as a frame is the row of that frame, which has at most 64 payload bytes. -/
theorem frameRow_of_encode {i : Instr} {bytes : List Byte} (hwf : i.wellFormed = true) (he : encode i = .frame bytes) :
    ∃ t p, p.length ≤ maxPayload ∧ bytes = frameBytes t p ∧ frameRow t p = i := by
  cases i <;> cases he
  case frame t p =>
    simp only [Instr.wellFormed, Bool.and_eq_true, decide_eq_true_eq, Bool.not_eq_true'] at hwf
    obtain ⟨hlen, hn⟩ := hwf
    rcases frameRow_cases t p with ⟨-, h⟩ | ⟨hn', -⟩
    · exact ⟨t, p, hlen, rfl, h⟩
    · rw [hn] at hn'; cases hn'
  case telemetry r =>
    refine ⟨_, _, (telemetryBytes_length r).trans_le (by decide), rfl, ?_⟩
    have hrow := telemetryFields_telemetryBytes (of_decide_eq_true hwf)
    simp [frameRow, telemetryBytes_length, hrow, typeTelemetry, typeCommand]
  case scram => exact ⟨_, _, commandBytes_length_le .scram, rfl, rfl⟩
  case resetNormal => exact ⟨_, _, commandBytes_length_le .resetNormal, rfl, rfl⟩
  case setPower v =>
    refine ⟨_, _, commandBytes_length_le (.setPower v), rfl, ?_⟩
    simp [frameRow, commandBytes, bytesLe32, cmdLenSetPower, le32At, le32_extract]

/-! ## Command payloads, bytes and calls -/

/-- An operation written as a Command payload is read back from it (R71, R72). -/
theorem decodeCommand_encode {i : Instr} {p : List Byte} (he : encode i = .command p) : decodeCommand p = .ok i := by
  cases i <;> cases he
  case rsmCmdScram => rfl
  case rsmCmdResetNormal => rfl
  case rsmCmdSetPower v =>
    simp [decodeCommand, commandBytes, bytesLe32, cmdIdScram, cmdIdResetNormal, cmdIdSetPower, cmdLenSetPower, le32At,
      le32_extract]

/-- What a Command payload decodes to is a command row, which is well formed and selected in every state. -/
theorem decodeCommand_ok {p : List Byte} {i : Instr} (h : decodeCommand p = .ok i) (st : DecState) (acc : Byte) :
    i.wellFormed = true ∧ selects st acc i = true := by
  unfold decodeCommand at h
  split at h
  · cases h
  · split_ifs at h <;> cases h <;> exact ⟨rfl, rfl⟩

/-- A payload that decodes to no command row is dropped by CMD.UNPACK (R76, R77). -/
theorem unpackCommand_of_decodeCommand_error {p : List Byte} {e : Reject} (h : decodeCommand p = .error e) :
    ∃ ev, Machine.unpackCommand p = .error ev := by
  unfold decodeCommand at h
  split at h
  · exact ⟨_, rfl⟩
  · rename_i id rest
    simp only [Machine.unpackCommand]
    split_ifs at h ⊢
    · exact ⟨_, rfl⟩
    · exact ⟨_, rfl⟩

/-- A byte row that is selected is the one the byte is classified as (R73). -/
theorem classify_of_selects {i : Instr} {st : DecState} {acc b : Byte} (he : encode i = .byte b)
    (hs : selects st acc i = true) : classify st acc b = i := by
  cases i <;> cases he <;>
    simp only [selects, Bool.and_eq_true, beq_iff_eq, bne_iff_ne, decide_eq_true_eq] at hs
  case decType => rw [hs, classify]
  case decPayload => rw [hs, classify]
  all_goals obtain ⟨hst, hb⟩ := hs
  case decWsStart => rw [hst, classify, if_pos hb]
  case decWsNoise => rw [hst, classify, if_neg hb]
  case decLenOver => rw [hst, classify, if_pos hb]
  case decLenZero => rw [hst, hb]; rfl
  case decLenOk =>
    obtain ⟨hst, hpos⟩ := hst
    have hnonzero : b ≠ 0 := fun h0 => by rw [h0] at hpos; exact absurd hpos (by decide)
    rw [hst, classify, if_neg hb.not_gt, if_neg hnonzero]
  case decCkOk => rw [hst, classify, if_pos hb]
  case decCkBad => rw [hst, classify, if_neg hb]

/-- The row a byte is classified as is well formed. -/
theorem classify_wellFormed (st : DecState) (acc b : Byte) : (classify st acc b).wellFormed = true := by
  cases st with
  | waitStart => simp only [classify]; split_ifs with hb <;> simp [Instr.wellFormed, hb]
  | readType => rfl
  | readLen =>
    simp only [classify]
    split_ifs with hover hzero
    · exact decide_eq_true hover
    · simp [Instr.wellFormed, hzero]
    · have hpos : 0 < b.toNat := by bv_omega
      simp only [Instr.wellFormed, hpos, Nat.not_lt.mp hover, decide_true, Bool.and_self]
  | readPayload => rfl
  | readChecksum => simp only [classify]; split_ifs <;> rfl

/-- A call names the operation it is written for. -/
theorem instr_of_encode_call {i : Instr} {c : Call} (he : encode i = .call c) : c.instr = i := by
  cases i <;> cases he <;> rfl

/-! ## Decode and encode -/

/-- Settles O4, by the format the operation is written in. -/
theorem decodeEncodeRoundTrip : Obligations.DecodeEncodeRoundTrip := by
  intro i st acc hwf hs
  cases he : encode i with
  | frame bytes =>
    obtain ⟨t, p, hp, rfl, hrow⟩ := frameRow_of_encode hwf he
    exact (decodeFrame_frameBytes t hp).trans (congrArg _ hrow)
  | command p => exact decodeCommand_encode he
  | byte b => exact congrArg Except.ok (classify_of_selects he hs)
  | call c => exact congrArg Except.ok (instr_of_encode_call he)

/-- Settles O5, by the format of the invocation. -/
theorem decodedIsWellFormed : Obligations.DecodedIsWellFormed := by
  intro st acc v i h hcall
  cases v with
  | frame bytes =>
    obtain ⟨t, p, hp, rfl, -⟩ := decodeFrame_ok h
    exact frameRow_wellFormed hp st acc
  | command p => exact decodeCommand_ok h st acc
  | byte b =>
    cases h
    exact ⟨classify_wellFormed st acc b, Machine.selects_classify st acc b⟩
  | call c => exact absurd rfl (hcall c)

/-- Settles O6: the row that `classify` gives is selected, and no other of the byte's rows is. -/
theorem byteClassesPartition : Obligations.ByteClassesPartition := by
  intro st acc b i he
  refine ⟨fun hs => (classify_of_selects he hs).symm, fun h => ?_⟩
  rw [h]
  exact Machine.selects_classify st acc b

/-- Settles O7: nine words written out from the tables of R71 and R73, each decoded by evaluation. -/
theorem writtenWordsDecode : Obligations.WrittenWordsDecode := by
  unfold Obligations.WrittenWordsDecode
  decide

end Sys2Proof
end

section
/-! One step (60_exceptions R191, R210): the oldest event pending, taken off and run. `step_cases` and
`runInvocation_cases` say what a step that completes can have been; the invariants of every step start from them. -/

namespace Sys2Proof.Machine

/-! ## Which event runs -/

theorem step_of_admissible {s : State} (ha : admissible s.config = true) : step s = runNext s := if_pos ha

theorem step_of_pending {s : State} {e : HostEvent} {rest : List HostEvent} (ha : admissible s.config = true)
    (hp : s.pending = e :: rest) : step s = runEvent e { s with pending := rest } := by
  rw [step_of_admissible ha, runNext, hp]

theorem step_of_idle {s : State} (ha : admissible s.config = true) (hp : s.pending = []) : step s = .next s := by
  rw [step_of_admissible ha, runNext, hp]

theorem step_of_inadmissible {s : State} (ha : admissible s.config = false) : step s = .refused .inadmissibleConfig :=
  if_neg (ne_true_of_eq_false ha)

/-- What a step that completes can have been: none, or the run of the oldest event. -/
theorem step_cases {s t : State} (h : step s = .next t) :
    admissible s.config = true ∧
      ((s.pending = [] ∧ t = s) ∨
        ∃ e rest, s.pending = e :: rest ∧ runEvent e { s with pending := rest } = .next t) := by
  cases ha : admissible s.config with
  | false => rw [step_of_inadmissible ha] at h; cases h
  | true =>
    refine ⟨rfl, ?_⟩
    cases hp : s.pending with
    | nil =>
      rw [step_of_idle ha hp] at h
      cases h
      exact Or.inl ⟨rfl, rfl⟩
    | cons e rest => exact Or.inr ⟨e, rest, rfl, by rw [← step_of_pending ha hp, h]⟩

/-! ## Invocations -/

theorem runInvocation_of_ok {v : Invocation} {s : State} {i : Instr}
    (h : decode s.dec.decState s.dec.checksumAcc v = .ok i) : runInvocation v s = exec i s := by
  rw [runInvocation, h]

theorem runInvocation_of_error {v : Invocation} {s : State} {e : Reject}
    (h : decode s.dec.decState s.dec.checksumAcc v = .error e) : runInvocation v s = runUndecoded v s := by
  rw [runInvocation, h]

/-- What an invocation that completes can have run: the operation it decodes to, the feeding of the bytes of an image
that is no frame, or CMD.UNPACK of a payload that is no command. -/
theorem runInvocation_cases {v : Invocation} {s t : State} (h : runInvocation v s = .next t) :
    (∃ i, decode s.dec.decState s.dec.checksumAcc v = .ok i ∧ exec i s = .next t) ∨
    (∃ bytes, s.quiet.receive bytes = .next t) ∨ (∃ p, exec (.cmdUnpack p) s = .next t) := by
  cases hd : decode s.dec.decState s.dec.checksumAcc v with
  | ok i => exact Or.inl ⟨i, rfl, by rw [← runInvocation_of_ok hd, h]⟩
  | error e =>
    rw [runInvocation_of_error hd] at h
    cases v with
    | frame bytes => exact Or.inr (Or.inl ⟨bytes, h⟩)
    | command p => exact Or.inr (Or.inr ⟨p, h⟩)
    | byte b => cases hd
    | call c => cases hd

/-- Inbound bytes that complete are taken whole by `rxBytes`. -/
theorem receive_eq_next {s t : State} {bytes : List Byte} : s.receive bytes = .next t ↔ s.rxBytes bytes = .ok t := by
  unfold State.receive
  cases s.rxBytes bytes with
  | ok u => simp
  | error f => simp

/-! ## CMD.UNPACK -/

theorem exec_cmdUnpack_of_ok (s : State) {p : List Byte} {c : Command} (h : unpackCommand p = .ok c) :
    exec (.cmdUnpack p) s = .next { s with out := { result := some (.command c) } } := by
  simp only [exec, execCmdUnpack, h]
  rfl

theorem exec_cmdUnpack_of_error (s : State) {p : List Byte} {e : Event} (h : unpackCommand p = .error e) :
    exec (.cmdUnpack p) s = .next { s with out := { result := some .dropped, events := [e] } } := by
  simp only [exec, execCmdUnpack, h]
  rfl

/-! ## What a step runs -/

/-- Settles O1. -/
theorem stepRunsDecodedOperation : Obligations.StepRunsDecodedOperation := by
  intro s v rest i ha hp hd
  rw [step_of_pending ha hp]
  exact runInvocation_of_ok hd

/-- Settles O2: a format with bytes that are no instruction runs `runUndecoded`. -/
theorem undecodedBytesStillAct : Obligations.UndecodedBytesStillAct := by
  intro s rest e ha
  refine ⟨fun bytes hp hd => ?image, fun p hp hd => ?payload⟩
  case image =>
    rw [step_of_pending ha hp]
    exact runInvocation_of_error (v := .frame bytes) hd
  case payload =>
    obtain ⟨ev, hev⟩ := unpackCommand_of_decodeCommand_error hd
    refine ⟨ev, hev, ?_⟩
    rw [step_of_pending ha hp]
    exact (runInvocation_of_error (v := .command p) hd).trans (exec_cmdUnpack_of_error _ hev)

/-- Settles O3. -/
theorem stepWithoutOperation : Obligations.StepWithoutOperation := fun _ => ⟨step_of_idle, step_of_inadmissible⟩

/-! ## Power-on and the bridge's host -/

/-- The parts of an admissible configuration that power-on puts into registers. -/
theorem admissible_reset {c : Config} (h : admissible c = true) :
    c.resetPower ≤ powerMax ∧ (c.resetState = .scram → c.resetPower = 0) ∧ Memory.wf c.payloadInit = true := by
  simp only [admissible, Bool.and_eq_true, Bool.or_eq_true, decide_eq_true_eq, bne_iff_ne, beq_iff_eq] at h
  obtain ⟨⟨⟨-, hpower⟩, hscram⟩, hinit⟩ := h
  exact ⟨hpower, fun hs => hscram.resolve_left (not_not_intro hs), hinit⟩

/-- Power-on under an admissible configuration gives the invariants, whatever is pending. -/
theorem stateOk_powerOn {c : Config} (h : admissible c = true) (side : Side) (rest : List HostEvent) :
    stateOk { State.powerOn c side with pending := rest } ∧
      scramPowerZero ({ State.powerOn c side with pending := rest } : State).reactor := by
  obtain ⟨hpower, hscram, hinit⟩ := admissible_reset h
  refine ⟨⟨h, ?_, hpower, Nat.zero_le _, Nat.zero_le _, by simp [State.powerOn], by simp [State.powerOn]⟩, hscram⟩
  simp [State.powerOn, decoderOk, hinit]

/-- Settles O54. -/
theorem powerOnReset : Obligations.PowerOnReset := by
  intro s rest ha hp
  obtain ⟨hok, hscram⟩ := stateOk_powerOn ha s.side rest
  exact ⟨_, step_of_pending ha hp, ⟨rfl, rfl, rfl, rfl, rfl⟩, rfl, rfl, rfl, rfl, rfl, rfl, rfl, rfl, rfl, hok, hscram⟩

/-- Settles O55: the reset state is a power-on under the chosen configuration, which is admissible. -/
theorem resetStateSatisfiesInvariants : Obligations.ResetStateSatisfiesInvariants := by
  have hchosen : admissible Config.chosen = true := by decide
  obtain ⟨hok, hscram⟩ := stateOk_powerOn hchosen .reactor []
  exact ⟨hok, hscram, ⟨rfl, rfl, rfl, rfl, rfl⟩, rfl, rfl, rfl⟩

theorem takeLatest_of_some {s : State} {r : TelemetryRecord} (h : s.latest = some r) :
    s.takeLatest = { s with latest := none }.returning (.record r) := by
  rw [State.takeLatest, h]

theorem takeLatest_of_none {s : State} (h : s.latest = none) : s.takeLatest = s.returning .dropped := by
  rw [State.takeLatest, h]

/-- Settles O56. -/
theorem bridgeHostEvents : Obligations.BridgeHostEvents := by
  intro s rest r c ha
  refine ⟨fun hp hl => ?taken, fun hp hl => ?empty, fun hp => step_of_pending ha hp⟩
  case taken =>
    rw [step_of_pending ha hp]
    exact congrArg Host.Outcome.next (takeLatest_of_some hl)
  case empty =>
    rw [step_of_pending ha hp]
    exact congrArg Host.Outcome.next (takeLatest_of_none hl)

end Sys2Proof.Machine
end

section
/-! The reactor's batches and invariants, and the control step (42_reactor R146 to R155, 43_sequencing R160 to R165). A
control step has two outcomes, `exec_ctrlStep_of_room` and `exec_ctrlStep_of_full`, that differ in what becomes of the
record. -/

namespace Sys2Proof.Machine

/-! ## Batches (R155) -/

/-- SetPower leaves the state alone, and so does a batch of nothing else. -/
theorem applyAll_setPower_state {cmds : List Command} (h : ∀ x ∈ cmds, ∃ v, x = .setPower v) (r : Reactor) :
    (r.applyAll cmds).state = r.state := by
  induction cmds generalizing r with
  | nil => rfl
  | cons c cs ih =>
    obtain ⟨v, rfl⟩ := h c List.mem_cons_self
    rw [Reactor.applyAll_cons, ih fun x hx => h x (List.mem_cons_of_mem _ hx)]
    rfl

/-- Without a ResetNormal a batch stays in Scram. -/
theorem applyAll_state_scram {cmds : List Command} (h : .resetNormal ∉ cmds) {r : Reactor} (hs : r.state = .scram) :
    (r.applyAll cmds).state = .scram := by
  induction cmds generalizing r with
  | nil => exact hs
  | cons c cs ih =>
    obtain ⟨hc, hcs⟩ := not_or.mp (mt List.mem_cons.mpr h)
    rw [Reactor.applyAll_cons]
    refine ih hcs ?_
    cases c with
    | scram => rfl
    | resetNormal => exact absurd rfl hc
    | setPower v => exact hs

/-- No command reads the power it replaces. -/
theorem apply_power_congr (r r' : Reactor) (c : Command) : (r.apply c).power = (r'.apply c).power := by
  cases c <;> rfl

/-- Settles O37: the batch is cut at its last command, and at its last Scram or ResetNormal. -/
theorem batchLastWriterWins : Obligations.BatchLastWriterWins := by
  intro r before after c
  refine ⟨rfl, ?power, fun hafter => ⟨applyAll_setPower_state hafter r, ?scram, ?resetNormal⟩⟩
  case power =>
    rw [applyAll_append]
    exact apply_power_congr _ _ c
  case scram => rw [applyAll_append, Reactor.applyAll_cons, applyAll_setPower_state hafter]; rfl
  case resetNormal => rw [applyAll_append, Reactor.applyAll_cons, applyAll_setPower_state hafter]; rfl

/-! ## The invariants of a reactor step (R152, R153) -/

/-- A reactor step keeps the bound on the power and ends with power 0 if in Scram. -/
theorem reactorStep_invariants {r : Reactor} (h : r.power ≤ powerMax) (c : Config) (cmds : List Command)
    (temp accel : Word) (ok : Bool) :
    (r.step c cmds temp accel ok).power ≤ powerMax ∧ scramPowerZero (r.step c cmds temp accel ok) := by
  rcases reactorStep_cases c cmds temp accel ok r with hs | ⟨hpower, hstate⟩
  · rw [hs]; exact ⟨by decide, fun _ => rfl⟩
  · rw [hpower]; exact ⟨applyAll_power h cmds, fun hs => absurd hs hstate⟩

/-- A reactor step from Scram without a ResetNormal ends in (Scram, 0), by the fail-safe or by the row of Scram. -/
theorem reactorStep_from_scram {r : Reactor} (hs : r.state = .scram) {cmds : List Command} (h : .resetNormal ∉ cmds)
    (c : Config) (temp accel : Word) (ok : Bool) : r.step c cmds temp accel ok = { state := .scram, power := 0 } := by
  cases ok with
  | false => rfl
  | true => exact eval_scram (applyAll_state_scram h hs)

/-- Settles O38. -/
theorem onlyResetNormalLeavesScram : Obligations.OnlyResetNormalLeavesScram := by
  intro s temp accel ok hs hcmds
  obtain ⟨t, ht, hreactor, -⟩ := exec_ctrlStep_reactor temp accel ok s
  exact ⟨t, ht, hreactor.trans (reactorStep_from_scram hs hcmds _ _ _ _)⟩

/-- Settles O39: both operations end with the reactor of one reactor step. -/
theorem reactorInvariantsHoldAfterStep : Obligations.ReactorInvariantsHoldAfterStep := by
  intro s cmds temp accel ok hpower
  obtain ⟨t, ht, hreactor, -⟩ := exec_ctrlStep_reactor temp accel ok s
  refine ⟨⟨_, exec_rsmStep cmds temp accel ok s, ?step⟩, t, ht, ?control⟩
  case step =>
    rw [State.noteSensor_reactor, State.reacting_reactor]
    exact reactorStep_invariants hpower _ _ _ _ _
  case control =>
    rw [hreactor]
    exact reactorStep_invariants hpower _ _ _ _ _

/-! ## Examples of the evaluation (R149, R150, R154) -/

/-- A reactor step with a sensor reading, as an operation. -/
theorem exec_rsmStep_sensorOk (cmds : List Command) (temp accel : Word) (s : State) :
    exec (.rsmStep cmds temp accel true) s =
      .next (s.reacting ((s.reactor.applyAll cmds).eval s.config temp accel)) := rfl

/-- Settles O40: the evaluation finds the reactor at (Normal, 50), whatever it was. -/
theorem resetNormalIsReevaluated : Obligations.ResetNormalIsReevaluated := by
  intro s temp accel
  have hnormal : (s.reactor.applyAll [.resetNormal]).state = .normal := rfl
  refine ⟨_, exec_rsmStep_sensorOk _ temp accel s, ?_⟩
  rw [State.reacting_reactor]
  refine ⟨fun hc => ?crit, fun hc hw => ?warn, fun hc hw => ?calm⟩
  case crit => exact eval_of_isCrit hc
  case warn => exact (eval_normal hnormal hc).trans (if_pos hw)
  case calm => exact (eval_normal hnormal hc).trans (if_neg (ne_true_of_eq_false hw))

/-- From Warning, with no command and a sample that is not critical, only the hysteresis decides. -/
theorem exec_rsmStep_warning {s : State} {temp accel : Word} (hs : s.reactor.state = .warning)
    (hc : isCrit s.config temp accel = false) :
    exec (.rsmStep [] temp accel true) s =
      .next (s.reacting (if isClear s.config temp then { s.reactor with state := .normal } else s.reactor)) := by
  rw [exec_rsmStep_sensorOk, ← eval_warning hs hc]
  rfl

/-- TEMP_CLEAR depends on TEMP_WARNING alone. -/
theorem isClear_congr {c c' : Config} (h : c.tempWarning = c'.tempWarning) (temp : Word) :
    isClear c temp = isClear c' temp := by
  rw [isClear, isClear, tempClear, tempClear, h]

/-- Settles O41: neither sample is critical, and only the second is below TEMP_CLEAR, 43.0. -/
theorem hysteresisExample : Obligations.HysteresisExample := by
  intro s accel hwarning hcritical hs haccel
  have hnotCrit : ∀ temp, f32Ge temp 0x42480000 = false → isCrit s.config temp accel = false := by
    intro temp htemp
    rw [isCrit, hcritical, majorQuake, htemp, haccel]
    rfl
  have hclear : ∀ temp, isClear s.config temp = isClear Config.chosen temp := isClear_congr hwarning
  refine ⟨?stays, ?leaves⟩
  case stays =>
    have hnotClear : isClear s.config 0x42300000 = false := by rw [hclear]; decide
    rw [exec_rsmStep_warning hs (hnotCrit _ (by decide)), if_neg (ne_true_of_eq_false hnotClear)]
    rfl
  case leaves =>
    have hisClear : isClear s.config 0x422B999A = true := by rw [hclear]; decide
    rw [exec_rsmStep_warning hs (hnotCrit _ (by decide)), if_pos hisClear]
    rfl

/-- Settles O42: the sample is a warning by its acceleration and clear by its temperature. -/
theorem coolQuakeAlternates : Obligations.CoolQuakeAlternates := by
  intro s temp accel hs hcrit hquake hcool
  have hwarn : isWarn s.config temp accel = true := by rw [isWarn, minorQuake, hquake, Bool.or_true]
  have hup : s.reactor.eval s.config temp accel = { s.reactor with state := .warning } :=
    (eval_normal hs hcrit).trans (if_pos hwarn)
  have hdown : Reactor.eval s.config temp accel { s.reactor with state := .warning } =
      { s.reactor with state := .normal } := (eval_warning rfl hcrit).trans (if_pos hcool)
  refine ⟨_, _, exec_rsmStep_sensorOk [] temp accel s, hup, exec_rsmStep_sensorOk [] temp accel _, ?_⟩
  change Reactor.eval s.config temp accel (s.reactor.eval s.config temp accel) = s.reactor
  rw [hup, hdown, ← hs]

/-! ## The control step -/

theorem sendTelemetry_of_room {s : State} (h : s.tlmCh.length < s.config.tlmChCap) (r : TelemetryRecord) :
    s.sendTelemetry r = { s with tlmCh := s.tlmCh ++ [r] } := if_pos h

theorem sendTelemetry_of_full {s : State} (h : s.config.tlmChCap ≤ s.tlmCh.length) (r : TelemetryRecord) :
    s.sendTelemetry r = s.raise (.tlmChFull r.sampleId) := if_neg h.not_gt

/-- The events of reading the sensor (R145, R188). -/
def sensorEvents (ok : Bool) : List Event := if ok then [] else [.sensorFail]

theorem noteSensor_eq (s : State) (ok : Bool) :
    s.noteSensor ok = { s with out := { s.out with events := s.out.events ++ sensorEvents ok } } := by
  cases ok with
  | false => rfl
  | true => simp [sensorEvents]

/-- The record a control step builds: state and power after its reactor step, the counter before its increment (R160,
R163). -/
def stepRecord (s : State) (temp accel : Word) (ok : Bool) : TelemetryRecord :=
  { s with reactor := s.reactor.step s.config s.cmdCh temp accel ok }.buildRecord temp accel

/-- All that a control step does before it sends its record. -/
def beforeSend (s : State) (temp accel : Word) (ok : Bool) : State :=
  { s with
    reactor := s.reactor.step s.config s.cmdCh temp accel ok
    cmdCh := []
    sampleId := s.sampleId + 1
    out := { events := sensorEvents ok
             indicator := [(s.reactor.step s.config s.cmdCh temp accel ok).state]
             record := some (stepRecord s temp accel ok) } }

theorem exec_ctrlStep (temp accel : Word) (ok : Bool) (s : State) :
    exec (.ctrlStep temp accel ok) s =
      .next ((beforeSend s temp accel ok).sendTelemetry (stepRecord s temp accel ok)) := by
  simp only [exec, execCtrlStep, noteSensor_eq]
  rfl

theorem exec_ctrlStep_of_room {s : State} (h : s.tlmCh.length < s.config.tlmChCap) (temp accel : Word) (ok : Bool) :
    exec (.ctrlStep temp accel ok) s =
      .next { beforeSend s temp accel ok with tlmCh := s.tlmCh ++ [stepRecord s temp accel ok] } :=
  (exec_ctrlStep temp accel ok s).trans
    (congrArg _ (sendTelemetry_of_room (s := beforeSend s temp accel ok) h _))

theorem exec_ctrlStep_of_full {s : State} (h : s.config.tlmChCap ≤ s.tlmCh.length) (temp accel : Word) (ok : Bool) :
    exec (.ctrlStep temp accel ok) s =
      .next ((beforeSend s temp accel ok).raise (.tlmChFull s.sampleId)) :=
  (exec_ctrlStep temp accel ok s).trans
    (congrArg _ (sendTelemetry_of_full (s := beforeSend s temp accel ok) h _))

/-- Whatever becomes of the record, a control step advances the counter and shows the record it built. -/
theorem exec_ctrlStep_record (temp accel : Word) (ok : Bool) (s : State) :
    ∃ t, exec (.ctrlStep temp accel ok) s = .next t ∧ t.sampleId = s.sampleId + 1 ∧
      t.out.record = some (stepRecord s temp accel ok) := by
  rcases Nat.lt_or_ge s.tlmCh.length s.config.tlmChCap with h | h
  · exact ⟨_, exec_ctrlStep_of_room h temp accel ok, rfl, rfl⟩
  · exact ⟨_, exec_ctrlStep_of_full h temp accel ok, rfl, rfl⟩

/-- Settles O43, by the two outcomes of sending the record. -/
theorem controlStepEffects : Obligations.ControlStepEffects := by
  intro s temp accel ok
  have hr := exec_rsmStep s.cmdCh temp accel ok s
  rw [noteSensor_eq] at hr
  rcases Nat.lt_or_ge s.tlmCh.length s.config.tlmChCap with h | h
  · exact ⟨_, _, stepRecord s temp accel ok, hr, exec_ctrlStep_of_room h temp accel ok, rfl, fun _ => rfl,
      fun h' => absurd h h'.not_gt⟩
  · exact ⟨_, _, stepRecord s temp accel ok, hr, exec_ctrlStep_of_full h temp accel ok, rfl,
      fun h' => absurd h' h.not_gt, fun _ => rfl⟩

/-- A run of control steps completes and advances the counter once for each. -/
theorem execAll_ctrlSteps_sampleId (inputs : List (Word × Word × Bool)) (s : State) :
    ∃ t, execAll (inputs.map fun x => .ctrlStep x.1 x.2.1 x.2.2) s = .next t ∧
      t.sampleId = s.sampleId + BitVec.ofNat 32 inputs.length := by
  induction inputs generalizing s with
  | nil => exact ⟨s, rfl, by simp⟩
  | cons x xs ih =>
    obtain ⟨u, hu, hid, -⟩ := exec_ctrlStep_record x.1 x.2.1 x.2.2 s
    obtain ⟨t, ht, htid⟩ := ih u
    refine ⟨t, (execAll_cons_of_next hu).trans ht, ?_⟩
    rw [htid, hid, List.length_cons, BitVec.ofNat_add, BitVec.add_assoc, BitVec.add_comm 1]
    rfl

/-- Settles O44. -/
theorem sampleIdCountsControlSteps : Obligations.SampleIdCountsControlSteps := by
  intro inputs temp accel ok s
  obtain ⟨t, ht, hid⟩ := execAll_ctrlSteps_sampleId inputs s
  obtain ⟨u, hu, -, hrecord⟩ := exec_ctrlStep_record temp accel ok t
  refine ⟨t, u, ht, ?_, hu, stepRecord t temp accel ok, hrecord, rfl⟩
  rw [hid]
  simp [BitVec.toNat_add]

end Sys2Proof.Machine
end

section
/-! What every operation may write and what every step keeps (10_state R39, 41_encoder_payload R110, 60_exceptions R180,
R196). `Effect` lists what an operation that completes has done; ownership and the invariants are read off it. -/

namespace Sys2Proof.Machine

/-! ## The agent of an operation, by the format it is written in -/

theorem ofControlAgent_of_isPure {i : Instr} (h : isPure i = true) : ofControlAgent i = false := by
  cases i <;> try rfl
  all_goals cases h

/-- A byte row is neither of the control agent nor a pure function. -/
theorem agent_of_encode_byte {i : Instr} {b : Byte} (h : encode i = .byte b) :
    ofControlAgent i = false ∧ isPure i = false := by
  cases i <;> cases h <;> exact ⟨rfl, rfl⟩

/-- A frame row is neither of the control agent nor a pure function. -/
theorem agent_of_encode_frame {i : Instr} {bytes : List Byte} (h : encode i = .frame bytes) :
    ofControlAgent i = false ∧ isPure i = false := by
  cases i <;> cases h <;> exact ⟨rfl, rfl⟩

/-! ## The effect of an operation -/

/-- What the operation has done where it completes. A pure function leaves outputs alone; a byte row is one `decStep`;
DEC.RESET resets the decoder; a row of the reactor replaces the reactor, within its invariants; CTRL.STEP sends a record
after its reactor step; a frame row and COMMS.ITER take inbound bytes, the latter after its drain. -/
inductive Effect (s : State) : Instr → State → Prop
  | call {i : Instr} (hi : isPure i = true) (o : Outputs) : Effect s i { s with out := o }
  | byteRow {i : Instr} {b : Byte} {r : DecResult} (hi : encode i = .byte b) (hr : decStep s.dec b = .ok r) :
      Effect s i (s.quiet.afterByte r)
  | decoderReset : Effect s .decReset { s.quiet with dec := s.dec.reset }
  | reactorRow {i : Instr} (hi : ofControlAgent i = true) (r : Reactor) (o : Outputs)
      (hpower : s.reactor.power ≤ powerMax → r.power ≤ powerMax)
      (hscram : (∀ v, i ≠ .rsmCmdSetPower v) → scramPowerZero r) : Effect s i { s with reactor := r, out := o }
  | control (temp accel : Word) (ok : Bool) :
      Effect s (.ctrlStep temp accel ok) ((beforeSend s temp accel ok).sendTelemetry (stepRecord s temp accel ok))
  | arrival {i : Instr} {bytes : List Byte} {t : State} (hi : encode i = .frame bytes)
      (ht : s.quiet.rxBytes bytes = .ok t) : Effect s i t
  | iteration {bytes : List Byte} {t : State} (ht : s.quiet.transmit.rxBytes bytes = .ok t) :
      Effect s (.commsIter bytes) t

/-- A byte row that is not selected is refused (R73; log 14). -/
theorem exec_of_not_selected {s : State} {i : Instr} {b : Byte} (he : encode i = .byte b)
    (hn : selects s.dec.decState s.dec.checksumAcc i = false) : exec i s = .refused .notSelected := by
  cases i <;> cases he <;> exact if_neg (ne_true_of_eq_false hn)

/-- A byte row that completes was selected, so it is the row its byte is classified as: one `decStep`. -/
theorem exec_byteRow_cases {s t : State} {i : Instr} {b : Byte} (he : encode i = .byte b) (h : exec i s = .next t) :
    ∃ r, decStep s.dec b = .ok r ∧ t = s.quiet.afterByte r := by
  cases hsel : selects s.dec.decState s.dec.checksumAcc i with
  | false => rw [exec_of_not_selected he hsel] at h; cases h
  | true =>
    rw [← classify_of_selects he hsel, exec_classify] at h
    cases hr : decStep s.dec b with
    | error f => rw [hr] at h; cases h
    | ok r => rw [hr] at h; cases h; exact ⟨r, rfl, rfl⟩

/-- A frame row of at most 64 payload bytes receives the bytes it is written as. -/
theorem exec_of_encode_frame {i : Instr} {bytes : List Byte} (hwf : i.wellFormed = true) (he : encode i = .frame bytes)
    (s : State) : exec i s = s.quiet.receive bytes := by
  cases i <;> cases he <;> try rfl
  case frame t p =>
    simp only [Instr.wellFormed, Bool.and_eq_true, decide_eq_true_eq] at hwf
    obtain ⟨hlen, -⟩ := hwf
    exact if_pos hlen

/-- The evaluation keeps the bound on the power and ends with power 0 if in Scram. -/
theorem eval_invariants (c : Config) (temp accel : Word) (r : Reactor) :
    (r.power ≤ powerMax → (r.eval c temp accel).power ≤ powerMax) ∧ scramPowerZero (r.eval c temp accel) := by
  rcases eval_cases c temp accel r with h | ⟨hpower, hstate, -⟩
  · rw [h]; exact ⟨fun _ => by decide, fun _ => rfl⟩
  · rw [hpower]; exact ⟨id, fun hs => absurd hs hstate⟩

theorem reactorStep_scramPowerZero (c : Config) (cmds : List Command) (temp accel : Word) (ok : Bool) (r : Reactor) :
    scramPowerZero (r.step c cmds temp accel ok) := by
  rcases reactorStep_cases c cmds temp accel ok r with h | ⟨-, hstate⟩
  · rw [h]; exact fun _ => rfl
  · exact fun hs => absurd hs hstate

/-- A reactor row replaces the reactor by one that the invariants bound; only the bare SetPower may leave a power above 0
in Scram (R152; log 24). -/
theorem reactorRow_effect {i : Instr} {s t : State} (hi : ofControlAgent i = true)
    (hctrl : ∀ temp accel ok, i ≠ .ctrlStep temp accel ok) (h : exec i s = .next t) : Effect s i t := by
  cases i <;> cases hi <;> try cases h
  case rsmCmdScram => exact .reactorRow rfl _ _ (fun _ => apply_power s.reactor .scram) fun _ _ => rfl
  case rsmCmdResetNormal =>
    exact .reactorRow rfl _ _ (fun _ => apply_power s.reactor .resetNormal) nofun
  case rsmCmdSetPower v =>
    exact .reactorRow rfl _ _ (fun _ => apply_power s.reactor (.setPower v)) fun hv => absurd rfl (hv v)
  case rsmEval temp accel =>
    obtain ⟨hpower, hscram⟩ := eval_invariants s.config temp accel s.reactor
    exact .reactorRow rfl _ _ hpower fun _ => hscram
  case rsmFailsafe => exact .reactorRow rfl _ _ (fun _ => apply_power s.reactor .scram) fun _ _ => rfl
  case rsmStep cmds temp accel ok =>
    rw [noteSensor_eq]
    exact .reactorRow rfl _ _ (fun hp => (reactorStep_invariants hp _ cmds temp accel ok).1)
      fun _ => reactorStep_scramPowerZero _ cmds temp accel ok s.reactor
  case ctrlStep temp accel ok => exact absurd rfl (hctrl temp accel ok)

/-- A pure function answers, and may drop its operand with an event; it leaves outputs alone. -/
theorem call_effect {i : Instr} {s t : State} (hi : isPure i = true) (h : exec i s = .next t) : Effect s i t := by
  cases i <;> cases hi
  case cksum t p =>
    simp only [exec, execCksum] at h
    split at h <;> cases h
    exact .call rfl _
  case encFrame t p =>
    simp only [exec, execEncFrame] at h
    split at h <;> cases h
    exact .call rfl _
  case tlmPack r => cases h; exact .call rfl _
  case tlmUnpack p =>
    simp only [exec, execTlmUnpack] at h
    split at h <;> cases h <;> exact .call rfl _
  case cmdPack c => cases h; exact .call rfl _
  case cmdUnpack p =>
    simp only [exec, execCmdUnpack] at h
    split at h <;> cases h <;> exact .call rfl _

/-- A frame row that completes has received the bytes it is written as. -/
theorem arrival_effect {i : Instr} {bytes : List Byte} {s t : State} (hi : encode i = .frame bytes)
    (h : exec i s = .next t) : Effect s i t := by
  refine .arrival hi (receive_eq_next.mp ?_)
  cases i <;> cases hi <;> try exact h
  case frame t p =>
    simp only [exec, execFrame] at h
    split at h
    · exact h
    · cases h

/-- What an operation that completes can have done. -/
theorem exec_effect {i : Instr} {s t : State} (h : exec i s = .next t) : Effect s i t := by
  cases he : encode i with
  | frame bytes => exact arrival_effect he h
  | byte b =>
    obtain ⟨r, hr, rfl⟩ := exec_byteRow_cases he h
    exact .byteRow he hr
  | command p => cases i <;> cases he <;> exact reactorRow_effect rfl (fun _ _ _ hc => by cases hc) h
  | call c =>
    cases i <;> cases he <;> try exact call_effect rfl h
    case call.decReset => cases h; exact .decoderReset
    case call.rsmEval => exact reactorRow_effect rfl (fun _ _ _ hc => by cases hc) h
    case call.rsmFailsafe => exact reactorRow_effect rfl (fun _ _ _ hc => by cases hc) h
    case call.rsmStep => exact reactorRow_effect rfl (fun _ _ _ hc => by cases hc) h
    case call.ctrlStep temp accel ok =>
      rw [exec_ctrlStep] at h
      cases h
      exact .control temp accel ok
    case call.commsIter bytes => exact .iteration (receive_eq_next.mp h)

/-! ## Ownership -/

/-- Settles O57, by the effect of the operation. -/
theorem ownershipOfState : Obligations.OwnershipOfState := by
  intro i s t h
  cases exec_effect h with
  | call hi o =>
    have hagent := ofControlAgent_of_isPure hi
    exact ⟨fun _ => ⟨rfl, rfl⟩, fun hc => absurd hc (ne_true_of_eq_false hagent), fun _ => rfl, fun _ => rfl⟩
  | byteRow hi hr =>
    obtain ⟨hagent, hpure⟩ := agent_of_encode_byte hi
    exact ⟨fun _ => ⟨rfl, rfl⟩, fun hc => absurd hc (ne_true_of_eq_false hagent), fun _ => rfl,
      fun hp => absurd hp (ne_true_of_eq_false hpure)⟩
  | decoderReset => exact ⟨fun _ => ⟨rfl, rfl⟩, nofun, fun _ => rfl, nofun⟩
  | reactorRow hi r o hpower hscram =>
    refine ⟨fun hc => ?_, fun _ => ⟨rfl, rfl⟩, fun _ => rfl, fun hp => ?_⟩
    · rw [hi] at hc; cases hc
    · rw [ofControlAgent_of_isPure hp] at hi; cases hi
  | control temp accel ok =>
    exact ⟨nofun, fun _ => by simp [beforeSend], fun hi => absurd rfl (hi temp accel ok),
      nofun⟩
  | arrival hi ht =>
    obtain ⟨hagent, hpure⟩ := agent_of_encode_frame hi
    have hsame := (rxBytes_ok ht).same
    refine ⟨fun _ => ?_, fun hc => ?_, fun _ => ?_, fun hp => ?_⟩
    · rw [hsame]; exact ⟨rfl, rfl⟩
    · rw [hagent] at hc; cases hc
    · rw [hsame]; rfl
    · rw [hpure] at hp; cases hp
  | iteration ht =>
    have hsame := (rxBytes_ok ht).same
    refine ⟨fun _ => ?_, nofun, fun _ => ?_, nofun⟩
    · rw [hsame]; simp
    · rw [hsame]; simp

/-! ## The invariants -/

/-- What a step is to keep: the configuration and the side, and the invariants. -/
def Keeps (s t : State) : Prop := t.config = s.config ∧ t.side = s.side ∧ (stateOk s → stateOk t)

theorem Keeps.trans {s t u : State} (h₁ : Keeps s t) (h₂ : Keeps t u) : Keeps s u := by
  obtain ⟨hc₁, hs₁, ho₁⟩ := h₁
  obtain ⟨hc₂, hs₂, ho₂⟩ := h₂
  exact ⟨hc₂.trans hc₁, hs₂.trans hs₁, ho₂ ∘ ho₁⟩

/-- Outputs, upstream commands, the counter and what is pending are in no invariant. -/
theorem keeps_unbounded (s : State) (n : Word) (up : List Command) (o : Outputs) (es : List HostEvent) :
    Keeps s { s with sampleId := n, upstream := up, out := o, pending := es } := ⟨rfl, rfl, id⟩

theorem keeps_dec {s : State} {d : Decoder} (h : decoderOk s.dec → decoderOk d) (o : Outputs) :
    Keeps s { s with dec := d, out := o } := by
  refine ⟨rfl, rfl, fun ⟨ha, hd, hpower, htl, hcm, htlPower, hlatest⟩ => ?_⟩
  exact ⟨ha, h hd, hpower, htl, hcm, htlPower, hlatest⟩

theorem keeps_reactor {s : State} {r : Reactor} (h : s.reactor.power ≤ powerMax → r.power ≤ powerMax) (o : Outputs) :
    Keeps s { s with reactor := r, out := o } := by
  refine ⟨rfl, rfl, fun ⟨ha, hd, hpower, htl, hcm, htlPower, hlatest⟩ => ?_⟩
  exact ⟨ha, hd, h hpower, htl, hcm, htlPower, hlatest⟩

/-- The drain empties a channel or leaves it. -/
theorem keeps_transmit (s : State) : Keeps s s.transmit := by
  unfold State.transmit
  split
  · refine ⟨rfl, rfl, fun ⟨ha, hd, hpower, _, hcm, _, hlatest⟩ => ?_⟩
    exact ⟨ha, hd, hpower, Nat.zero_le _, hcm, fun r hr => absurd hr List.not_mem_nil, hlatest⟩
  · exact keeps_unbounded s s.sampleId [] _ s.pending

theorem keeps_takeLatest (s : State) : Keeps s s.takeLatest := by
  unfold State.takeLatest
  split
  · refine ⟨rfl, rfl, fun ⟨ha, hd, hpower, htl, hcm, htlPower, _⟩ => ?_⟩
    exact ⟨ha, hd, hpower, htl, hcm, htlPower, fun r hr => by cases hr⟩
  · exact keeps_unbounded s s.sampleId s.upstream _ s.pending

/-- A record with a legal power, sent or dropped. -/
theorem keeps_sendTelemetry {s : State} {r : TelemetryRecord} (hr : stateOk s → r.power ≤ powerMax) :
    Keeps s (s.sendTelemetry r) := by
  rcases sendTelemetry_cases s r with ⟨hroom, h⟩ | ⟨-, h⟩ <;> rw [h]
  · refine ⟨rfl, rfl, fun hok => ?_⟩
    have hlegal := hr hok
    obtain ⟨ha, hd, hpower, -, hcm, htlPower, hlatest⟩ := hok
    refine ⟨ha, hd, hpower, ?_, hcm, fun x hx => ?_, hlatest⟩
    · rw [List.length_append]; exact hroom
    · rcases List.mem_append.mp hx with hx | hx
      · exact htlPower x hx
      · rw [List.mem_singleton.mp hx]; exact hlegal
  · exact keeps_unbounded s s.sampleId s.upstream _ s.pending

/-- Everything a control step does before it sends its record. -/
theorem keeps_beforeSend (s : State) (temp accel : Word) (ok : Bool) : Keeps s (beforeSend s temp accel ok) := by
  refine ⟨rfl, rfl, fun ⟨ha, hd, hpower, htl, _, htlPower, hlatest⟩ => ?_⟩
  exact ⟨ha, hd, (reactorStep_invariants hpower _ _ temp accel ok).1, htl, Nat.zero_le _, htlPower, hlatest⟩

theorem keeps_rxBytes {s t : State} {bytes : List Byte} (h : s.rxBytes bytes = .ok t) : Keeps s t := by
  have hin := rxBytes_ok h
  refine ⟨hin.config, by rw [hin.same], fun ⟨ha, hd, hpower, htl, hcm, htlPower, hlatest⟩ => ?_⟩
  obtain ⟨u, hu, hdec, -⟩ := rxBytes_of_ok hd bytes
  obtain rfl : t = u := by rw [h] at hu; exact Except.ok.inj hu
  have hcm' := hin.commands hcm
  have hlatest' := hin.latestPower hlatest
  rw [hin.same]
  exact ⟨ha, hdec, hpower, htl, hcm', htlPower, hlatest'⟩

/-- Every operation keeps the invariants. -/
theorem keeps_exec {i : Instr} {s t : State} (h : exec i s = .next t) : Keeps s t := by
  cases exec_effect h with
  | call hi o => exact keeps_unbounded s s.sampleId s.upstream o s.pending
  | byteRow hi hr =>
    refine keeps_dec (fun hd => ?_) _
    obtain ⟨r', hr', hok⟩ := decStep_of_ok hd _
    rw [hr] at hr'
    cases hr'
    exact hok
  | decoderReset => exact keeps_dec (fun ⟨_, _, _, _, hwf⟩ => by simp [decoderOk, hwf]) _
  | reactorRow hi r o hpower hscram => exact keeps_reactor hpower o
  | control temp accel ok =>
    exact (keeps_beforeSend s temp accel ok).trans (keeps_sendTelemetry fun ⟨_, _, hpower, _⟩ => hpower)
  | arrival hi ht => exact (keeps_unbounded s s.sampleId s.upstream {} s.pending).trans (keeps_rxBytes ht)
  | iteration ht =>
    exact ((keeps_unbounded s s.sampleId s.upstream {} s.pending).trans (keeps_transmit s.quiet)).trans
      (keeps_rxBytes ht)

theorem keeps_runInvocation {v : Invocation} {s t : State} (h : runInvocation v s = .next t) : Keeps s t := by
  rcases runInvocation_cases h with ⟨i, -, hi⟩ | ⟨bytes, hb⟩ | ⟨p, hp⟩
  · exact keeps_exec hi
  · exact (keeps_unbounded s s.sampleId s.upstream {} s.pending).trans (keeps_rxBytes (receive_eq_next.mp hb))
  · exact keeps_exec hp

theorem keeps_runEvent {e : HostEvent} {s t : State} (h : runEvent e s = .next t) : Keeps s t := by
  cases e with
  | invoke v => exact keeps_runInvocation h
  | powerOn =>
    cases h
    exact ⟨rfl, rfl, fun ⟨ha, _⟩ => (stateOk_powerOn ha s.side s.pending).1⟩
  | upstream c => cases h; exact keeps_unbounded s s.sampleId _ {} s.pending
  | takeLatest =>
    cases h
    exact (keeps_unbounded s s.sampleId s.upstream {} s.pending).trans (keeps_takeLatest s.quiet)

/-- Settles O58: a step is the run of one event, which keeps the invariants, or nothing. -/
theorem everyStepKeepsInvariants : Obligations.EveryStepKeepsInvariants := by
  intro s t h
  obtain ⟨-, ⟨-, rfl⟩ | ⟨e, rest, -, he⟩⟩ := step_cases h
  · exact ⟨rfl, rfl, id⟩
  · exact (keeps_unbounded s s.sampleId s.upstream s.out rest).trans (keeps_runEvent he)

/-! ## Power 0 in Scram -/

/-- Every operation but the bare SetPower keeps power 0 in Scram. -/
theorem scramPowerZero_exec {i : Instr} {s t : State} (hi : ∀ v, i ≠ .rsmCmdSetPower v)
    (hs : scramPowerZero s.reactor) (h : exec i s = .next t) : scramPowerZero t.reactor := by
  cases exec_effect h with
  | reactorRow _ r o _ hscram => exact hscram hi
  | control temp accel ok =>
    rw [State.sendTelemetry_reactor]
    exact reactorStep_scramPowerZero _ _ temp accel ok s.reactor
  | call hpure o => exact hs
  | byteRow hb hr => exact hs
  | decoderReset => exact hs
  | arrival hf ht => rw [(rxBytes_ok ht).same]; exact hs
  | iteration ht => rw [(rxBytes_ok ht).same]; simpa using hs

/-- Settles O59: of the events of the host, only an invocation or a power-on writes the reactor. -/
theorem scramMeansPowerZero : Obligations.ScramMeansPowerZero := by
  intro s t ⟨ha, _⟩ hs hset h
  obtain ⟨-, ⟨-, rfl⟩ | ⟨e, rest, hp, he⟩⟩ := step_cases h
  · exact hs
  cases e with
  | invoke v =>
    rcases runInvocation_cases he with ⟨i, hd, hi⟩ | ⟨bytes, hb⟩ | ⟨p, hu⟩
    · exact scramPowerZero_exec (s := { s with pending := rest }) (fun w hw => hset v rest w hp (hw ▸ hd)) hs hi
    · rw [(rxBytes_ok (receive_eq_next.mp hb)).same]; exact hs
    · exact scramPowerZero_exec (s := { s with pending := rest }) (i := .cmdUnpack p) (fun _ => nofun) hs hu
  | powerOn => cases he; exact (stateOk_powerOn ha s.side rest).2
  | upstream c => cases he; exact hs
  | takeLatest => cases he; simpa using hs

/-! ## Nothing is fatal -/

/-- From a decoder that R97 allows, a well-formed operation that the decoder selects completes. -/
theorem exec_completes {i : Instr} {s : State} (hd : decoderOk s.dec) (hwf : i.wellFormed = true)
    (hsel : selects s.dec.decState s.dec.checksumAcc i = true) : ∃ t, exec i s = .next t := by
  cases he : encode i with
  | frame bytes =>
    obtain ⟨t, ht, -⟩ := rxBytes_of_ok (s := s.quiet) hd bytes
    exact ⟨t, (exec_of_encode_frame hwf he s).trans (receive_eq_next.mpr ht)⟩
  | command p => cases i <;> cases he <;> exact ⟨_, rfl⟩
  | byte b =>
    obtain ⟨r, hr, -⟩ := decStep_of_ok hd b
    exact ⟨_, by rw [← classify_of_selects he hsel, exec_classify, hr]; rfl⟩
  | call c =>
    cases i <;> cases he <;> try exact ⟨_, rfl⟩
    case call.cksum t p => exact ⟨_, exec_cksum_of_le s t (of_decide_eq_true hwf)⟩
    case call.encFrame t p => exact ⟨_, exec_encFrame_of_le s t (of_decide_eq_true hwf)⟩
    case call.tlmUnpack p => simp only [exec, execTlmUnpack]; split <;> exact ⟨_, rfl⟩
    case call.cmdUnpack p => simp only [exec, execCmdUnpack]; split <;> exact ⟨_, rfl⟩
    case call.commsIter bytes =>
      obtain ⟨t, ht, -⟩ := rxBytes_of_ok (s := s.quiet.transmit) (by simpa using hd) bytes
      exact ⟨t, receive_eq_next.mpr ht⟩

/-- Bytes that are no instruction of their format still complete. -/
theorem runUndecoded_completes {s : State} (hd : decoderOk s.dec) (v : Invocation) : ∃ t, runUndecoded v s = .next t := by
  cases v with
  | frame bytes =>
    obtain ⟨t, ht, -⟩ := rxBytes_of_ok (s := s.quiet) hd bytes
    exact ⟨t, receive_eq_next.mpr ht⟩
  | command p => simp only [runUndecoded, execCmdUnpack]; split <;> exact ⟨_, rfl⟩
  | byte b => exact ⟨s, rfl⟩
  | call c => exact ⟨s, rfl⟩

/-- What an invocation decodes to is selected. -/
theorem selects_of_decode {st : DecState} {acc : Byte} {v : Invocation} {i : Instr} (h : decode st acc v = .ok i) :
    selects st acc i = true := by
  cases v with
  | call c => cases h; cases c <;> rfl
  | frame bytes => exact (decodedIsWellFormed st acc _ i h fun _ hc => by cases hc).2
  | command p => exact (decodedIsWellFormed st acc _ i h fun _ hc => by cases hc).2
  | byte b => exact (decodedIsWellFormed st acc _ i h fun _ hc => by cases hc).2

/-- Settles O60. -/
theorem nothingIsFatal : Obligations.NothingIsFatal := by
  intro s ⟨ha, hd, _⟩ hwf
  cases hp : s.pending with
  | nil => exact ⟨s, step_of_idle ha hp⟩
  | cons e rest =>
    rw [step_of_pending ha hp]
    cases e with
    | powerOn => exact ⟨_, rfl⟩
    | upstream c => exact ⟨_, rfl⟩
    | takeLatest => exact ⟨_, rfl⟩
    | invoke v =>
      cases hdec : decode s.dec.decState s.dec.checksumAcc v with
      | ok i =>
        obtain ⟨t, ht⟩ := exec_completes (s := { s with pending := rest }) hd (hwf v rest i hp hdec)
          (selects_of_decode hdec)
        exact ⟨t, (runInvocation_of_ok (s := { s with pending := rest }) hdec).trans ht⟩
      | error e =>
        obtain ⟨t, ht⟩ := runUndecoded_completes (s := { s with pending := rest }) hd v
        exact ⟨t, (runInvocation_of_error (s := { s with pending := rest }) hdec).trans ht⟩

end Sys2Proof.Machine
end

section
/-! The decoder over strings of bytes (40_decoder R85 to R105). A frame's bytes but the last are silent
(`decFeed_partialFrame`), the last ends the frame (`decFeed_wholeFrame`), and bytes before a start marker do nothing
(`decFeed_noise`). -/

namespace Sys2Proof

/-! ## XOR over byte strings -/

/-- A change of the seed comes out of the fold unchanged. -/
theorem foldl_xor_seed (p : List Byte) (a k : Byte) :
    p.foldl (· ^^^ ·) (a ^^^ k) = p.foldl (· ^^^ ·) a ^^^ k := by
  induction p generalizing a with
  | nil => rfl
  | cons x p ih =>
    have hswap : a ^^^ k ^^^ x = a ^^^ x ^^^ k := by ac_rfl
    rw [List.foldl_cons, List.foldl_cons, hswap, ih]

/-- Folding the differences of two strings of one length folds both strings. -/
theorem foldl_xor_zipWith {p q : List Byte} (h : q.length = p.length) (a b : Byte) :
    (List.zipWith (· ^^^ ·) p q).foldl (· ^^^ ·) (a ^^^ b) = p.foldl (· ^^^ ·) a ^^^ q.foldl (· ^^^ ·) b := by
  induction p generalizing q a b with
  | nil => rw [List.length_eq_zero_iff.mp h]; rfl
  | cons x p ih =>
    cases q with
    | nil => cases h
    | cons y q =>
      have hheads : a ^^^ b ^^^ (x ^^^ y) = a ^^^ x ^^^ (b ^^^ y) := by ac_rfl
      rw [List.zipWith_cons_cons, List.foldl_cons, hheads, ih (Nat.succ.inj h)]
      rfl

/-- What stands twice in a XOR cancels. -/
theorem xor_cancel (x y z : Byte) : x ^^^ (y ^^^ (x ^^^ z)) = y ^^^ z := by
  have hpair : x ^^^ (y ^^^ (x ^^^ z)) = (x ^^^ x) ^^^ (y ^^^ z) := by ac_rfl
  rw [hpair, BitVec.xor_self, BitVec.zero_xor]

/-- The changes of type, payload and checksum fold to the difference between the checksum due and the one received
(R114). -/
theorem foldl_xor_changes {p q : List Byte} (h : q.length = p.length) (t t' c : Byte) :
    (List.zipWith (· ^^^ ·) p q).foldl (· ^^^ ·) ((t ^^^ t') ^^^ (checksum t p ^^^ c)) = checksum t' q ^^^ c := by
  have hseeds (n k : Byte) : (t ^^^ t') ^^^ k = (t ^^^ n) ^^^ ((t' ^^^ n) ^^^ k) := by
    have hpair : (t ^^^ n) ^^^ ((t' ^^^ n) ^^^ k) = n ^^^ ((t ^^^ t') ^^^ (n ^^^ k)) := by ac_rfl
    rw [hpair, xor_cancel]
  calc
    _ = p.foldl (· ^^^ ·) (t ^^^ BitVec.ofNat 8 p.length) ^^^
        q.foldl (· ^^^ ·) ((t' ^^^ BitVec.ofNat 8 p.length) ^^^ (checksum t p ^^^ c)) := by
      rw [hseeds (BitVec.ofNat 8 p.length), foldl_xor_zipWith h]
    _ = checksum t p ^^^ (checksum t' q ^^^ (checksum t p ^^^ c)) := by
      rw [foldl_xor_seed q, ← checksum, ← h, ← checksum]
    _ = checksum t' q ^^^ c := xor_cancel _ _ _

theorem frameBytes_eq (t : Byte) (p : List Byte) :
    frameBytes t p = startMarker :: t :: BitVec.ofNat 8 p.length :: (p ++ [checksum t p]) := rfl

theorem frameBytes_dropLast (t : Byte) (p : List Byte) :
    (frameBytes t p).dropLast = [startMarker, t, BitVec.ofNat 8 p.length] ++ p := List.dropLast_concat

/-- A length of at most 64 fits its byte. -/
theorem ofNat_length {n : Byte} {p : List Byte} (h : p.length = n.toNat) : BitVec.ofNat 8 p.length = n := by
  rw [h, BitVec.ofNat_toNat, BitVec.setWidth_eq]

namespace Machine

/-! ## One byte as a step -/

/-- A byte that completes adds at most one output (R105). -/
theorem decStep_outputs {d : Decoder} {b : Byte} {r : DecResult} (h : decStep d b = .ok r) :
    r.frame.toList.length + r.event.toList.length ≤ 1 := by
  rcases decStep_event_or_frame h with h | h <;> rw [h]
  · cases r.event <;> simp
  · cases r.frame <;> simp

theorem step_byte_of_decStep {s : State} {b : Byte} {rest : List HostEvent} {r : DecResult}
    (ha : admissible s.config = true) (hp : s.pending = .invoke (.byte b) :: rest) (hr : decStep s.dec b = .ok r) :
    step s = .next { s with
      pending := rest, dec := r.dec, out := { frames := r.frame.toList, events := r.event.toList } } := by
  rw [step_byte ha hp, hr]
  rfl

/-- Settles O14. -/
theorem everyByteCompletes : Obligations.EveryByteCompletes := by
  intro s b rest ha hd hp
  obtain ⟨r, hr, hok⟩ := decStep_of_ok hd b
  exact ⟨_, step_byte_of_decStep ha hp hr, rfl, hok, decStep_outputs hr, rfl, rfl⟩

/-- What feeding a byte and a string does, taken apart. -/
theorem decFeed_cons_cases {d d' : Decoder} {b : Byte} {bs : List Byte} {fs : List Frame} {es : List Event}
    (h : decFeed d (b :: bs) = .ok (d', fs, es)) :
    ∃ r fs' es', decStep d b = .ok r ∧ decFeed r.dec bs = .ok (d', fs', es') ∧
      fs = r.frame.toList ++ fs' ∧ es = r.event.toList ++ es' := by
  unfold decFeed at h
  cases hr : decStep d b with
  | error f => simp [hr] at h
  | ok r =>
    simp only [hr] at h
    cases hf : decFeed r.dec bs with
    | error f => simp [hf] at h
    | ok q =>
      obtain ⟨d₁, fs', es'⟩ := q
      simp only [hf, Except.ok.injEq, Prod.mk.injEq] at h
      obtain ⟨rfl, rfl, rfl⟩ := h
      exact ⟨r, fs', es', rfl, hf, rfl, rfl⟩

theorem runSteps_of_next {s u : State} (h : step s = .next u) (k : Nat) : runSteps (k + 1) s = runSteps k u := by
  change (match step s with
    | .next t => runSteps k t
    | .fault f => .fault f
    | .refused r => .refused r) = _
  rw [h]

theorem stepFrames_of_next {s u : State} (h : step s = .next u) (k : Nat) :
    stepFrames (k + 1) s = u.out.frames ++ stepFrames k u := by
  change (match step s with
    | .next t => t.out.frames ++ stepFrames k t
    | .fault _ => []
    | .refused _ => []) = _
  rw [h]

theorem stepEvents_of_next {s u : State} (h : step s = .next u) (k : Nat) :
    stepEvents (k + 1) s = u.out.events ++ stepEvents k u := by
  change (match step s with
    | .next t => t.out.events ++ stepEvents k t
    | .fault _ => []
    | .refused _ => []) = _
  rw [h]

/-- Settles O15, by induction on the bytes. -/
theorem byteStepsFeedTheDecoder : Obligations.ByteStepsFeedTheDecoder := by
  intro bs
  induction bs with
  | nil =>
    intro rest s d fs es ha hp hf
    cases hf
    exact ⟨s, rfl, by rw [← (show s.pending = rest from hp)], rfl, rfl⟩
  | cons b bs ih =>
    intro rest s d fs es ha hp hf
    obtain ⟨r, fs', es', hr, hf', rfl, rfl⟩ := decFeed_cons_cases hf
    have hstep := step_byte_of_decStep ha hp hr
    obtain ⟨t, ht, hsame, hfs, hes⟩ := ih rest { s with
      pending := bs.map (fun b => HostEvent.invoke (.byte b)) ++ rest
      dec := r.dec
      out := { frames := r.frame.toList, events := r.event.toList } } d fs' es' ha rfl hf'
    exact ⟨t, (runSteps_of_next hstep _).trans ht, hsame, (stepFrames_of_next hstep _).trans (congrArg _ hfs),
      (stepEvents_of_next hstep _).trans (congrArg _ hes)⟩

/-! ## A frame, byte by byte -/

/-- A start marker, a type, a legal length and no more payload bytes than it says: silence, with the accumulator the
running XOR (R98, R99). -/
theorem decFeed_partialFrame {d : Decoder} (t : Byte) {n : Byte} {q : List Byte} (hd : d.decState = .waitStart)
    (hwf : Memory.wf d.payload = true) (hn : n.toNat ≤ 64) (hq : q.length ≤ n.toNat) :
    ∃ d', decFeed d (startMarker :: t :: n :: q) = .ok (d', [], []) ∧
      d'.checksumAcc = q.foldl (· ^^^ ·) (t ^^^ n) ∧
      d'.decState = if q.length = n.toNat then .readChecksum else .readPayload := by
  have hheader := decFeed_header t hd hn
  by_cases hnil : q = []
  · subst hnil
    have hzero : n = 0 ↔ ([] : List Byte).length = n.toNat := by
      rw [← BitVec.toNat_inj, eq_comm]; rfl
    exact ⟨_, hheader, rfl, by simp only [hzero]⟩
  · have hpos : 0 < q.length := List.length_pos_iff.mpr hnil
    have hnonzero : n ≠ 0 := fun h => by rw [h] at hq; exact absurd hq hpos.not_ge
    rw [if_neg hnonzero, if_neg hnonzero] at hheader
    obtain ⟨m, hm, -, -, -⟩ := decFeed_payload (q := q) (d := { d with
      msgType := t, len := n, idx := 0, checksumAcc := t ^^^ n, decState := .readPayload })
      rfl hwf hn hnil (by simpa using hq)
    exact ⟨_, decFeed_append hheader hm, rfl, by simp⟩

/-- The last byte of a frame ends it: with the frame if it is the checksum, and with an event if it is not (R95, R96). -/
theorem decFeed_wholeFrame {d : Decoder} (t c : Byte) {p : List Byte} (hd : d.decState = .waitStart)
    (hwf : Memory.wf d.payload = true) (hp : p.length ≤ 64) :
    ∃ m, Memory.wf m = true ∧ decFeed d (startMarker :: t :: BitVec.ofNat 8 p.length :: (p ++ [c])) =
      .ok (Decoder.mk .waitStart 0 0 0 0 m,
        if c = checksum t p then [{ typ := t, payload := p }] else [],
        if c = checksum t p then [] else [.checksum c (checksum t p)]) := by
  by_cases hc : c = checksum t p
  · obtain ⟨m, hm, -, -, hfeed⟩ := decFeed_frame t hd hwf hp
    refine ⟨m, hm, ?_⟩
    rw [if_pos hc, if_pos hc, hc, ← hfeed, frameBytes_eq]
  · obtain ⟨m, i, hbody, hm, -, -⟩ := decFeed_body t hd hwf hp
    have hlast : decStep (Decoder.mk .readChecksum t (BitVec.ofNat 8 p.length) i (checksum t p) m) c =
        .ok { dec := Decoder.mk .waitStart 0 0 0 0 m, event := some (.checksum c (checksum t p)) } := by
      simp only [decStep, if_neg hc]
      rfl
    refine ⟨m, hm, ?_⟩
    rw [if_neg hc, if_neg hc]
    exact decFeed_append hbody (decFeed_cons hlast (decFeed_nil _))

/-- A length byte above 64 ends the frame with an event (R90). -/
theorem decFeed_oversize {d : Decoder} (t : Byte) {n : Byte} (hd : d.decState = .waitStart) (hn : 64 < n.toNat) :
    decFeed d [startMarker, t, n] = .ok (d.reset, [], [.oversize n]) := by
  have hlong : maxPayload < n.toNat := hn
  simp [decFeed, decStep, hd, rowWsStart, rowType, rowLenOver, hlong, Decoder.reset]

/-- Bytes that are no start marker leave a decoder in WaitStart as it is (R88). -/
theorem decFeed_noise {d : Decoder} {bs : List Byte} (hd : d.decState = .waitStart) (h : startMarker ∉ bs) :
    decFeed d bs = .ok (d, [], []) := by
  induction bs with
  | nil => rfl
  | cons b bs ih =>
    obtain ⟨hb, hbs⟩ := not_or.mp (mt List.mem_cons.mpr h)
    have hstep : decStep d b = .ok { dec := d } := by
      rw [decStep, hd]
      exact if_neg (Ne.symm hb)
    exact decFeed_cons hstep (ih hbs)

/-! ## Frames on an idle decoder -/

/-- Settles O16. -/
theorem accumulatorIsRunningXor : Obligations.AccumulatorIsRunningXor := by
  intro d t n q hd hwf hn hq
  obtain ⟨d', hfeed, hacc, hstate⟩ := decFeed_partialFrame t hd hwf hn hq
  refine ⟨d', hfeed, hacc, fun hfull => ⟨by rw [hstate, if_pos hfull], ?_⟩⟩
  rw [hacc, checksum, ofNat_length hfull]

/-- Settles O17. -/
theorem bytesConsumedPerFrame : Obligations.BytesConsumedPerFrame := by
  intro d t n q ⟨hd, _⟩ hwf
  refine ⟨fun hn => ⟨_, decFeed_oversize t hd hn, rfl, rfl, rfl, rfl, rfl⟩, fun hn hq => ⟨fun k hk hk' => ?silent, ?ends⟩⟩
  case silent =>
    match k, hk with
    | 1, _ => exact ⟨{ d with decState := .readType }, by simp [decFeed, decStep, hd, rowWsStart, startMarker], nofun⟩
    | 2, _ =>
      exact ⟨{ d with decState := .readLen, msgType := t, checksumAcc := t },
        by simp [decFeed, decStep, hd, rowWsStart, rowType, startMarker], nofun⟩
    | k + 3, _ =>
      obtain ⟨d', hfeed, -, hstate⟩ := decFeed_partialFrame (q := q.take k) t hd hwf hn
        ((List.length_take_le k q).trans (by omega))
      refine ⟨d', hfeed, ?_⟩
      rw [hstate]
      split <;> nofun
  case ends =>
    obtain rfl | ⟨p, c, rfl⟩ := List.eq_nil_or_concat q
    · cases hq
    · rw [List.concat_eq_append] at hq ⊢
      have hlen : p.length = n.toNat := by simpa using hq
      obtain ⟨m, -, hfeed⟩ := decFeed_wholeFrame t c hd hwf (hlen.trans_le hn)
      rw [ofNat_length hlen] at hfeed
      refine ⟨_, _, _, hfeed, ⟨rfl, rfl, rfl, rfl, rfl⟩, ?_⟩
      split <;> rfl

/-- Settles O19. -/
theorem frameRoundTrip : Obligations.FrameRoundTrip := by
  intro d t p ⟨hd, _⟩ hwf hp
  obtain ⟨m, i, hbody, -, -, -⟩ := decFeed_body t hd hwf hp
  obtain ⟨m', hm', -, -, hfeed⟩ := decFeed_frame t hd hwf hp
  rw [← frameBytes_dropLast] at hbody
  exact ⟨_, _, hbody, hfeed, ⟨rfl, rfl, rfl, rfl, rfl⟩, hm'⟩

/-- Settles O20. -/
theorem resynchronisesAfterBadChecksum : Obligations.ResynchronisesAfterBadChecksum := by
  intro d t₁ t₂ c p₁ p₂ ⟨hd, _⟩ hwf hp₁ hp₂ hc
  obtain ⟨m₁, hm₁, hbad⟩ := decFeed_wholeFrame t₁ c hd hwf hp₁
  obtain ⟨m₂, -, -, -, hgood⟩ := decFeed_frame (d := Decoder.mk .waitStart 0 0 0 0 m₁) t₂ rfl hm₁ hp₂
  rw [if_neg hc, if_neg hc] at hbad
  refine ⟨_, _, ?_, ⟨rfl, rfl, rfl, rfl, rfl⟩, hgood, ⟨rfl, rfl, rfl, rfl, rfl⟩⟩
  rw [frameBytes_dropLast]
  exact hbad

/-- Settles O21; the frame from inside the body is the empty Telemetry frame. -/
theorem oversizeFrameSkipped : Obligations.OversizeFrameSkipped := by
  intro d t n t₂ body p₂ ⟨hd, _⟩ hwf hn hp₂
  refine ⟨_, decFeed_oversize t hd hn, ⟨rfl, rfl, rfl, rfl, rfl⟩, fun hbody => ?skipped, ?inside⟩
  case skipped =>
    obtain ⟨m, -, -, -, hframe⟩ := decFeed_frame (d := d.reset) t₂ rfl hwf hp₂
    exact ⟨_, decFeed_append (decFeed_noise rfl hbody) hframe, ⟨rfl, rfl, rfl, rfl, rfl⟩⟩
  case inside =>
    obtain ⟨m, -, -, -, hframe⟩ := decFeed_frame (d := d.reset) typeTelemetry (p := []) rfl hwf (Nat.zero_le _)
    exact ⟨_, hframe, ⟨rfl, rfl, rfl, rfl, rfl⟩⟩

/-- Settles O23: the XOR of the changes is that of the checksum due and the byte received. -/
theorem corruptionCaughtUnlessItCancels : Obligations.CorruptionCaughtUnlessItCancels := by
  intro d t t' c' p p' ⟨hd, _⟩ hwf hp hlen diff received
  have hdiff : diff = checksum t' p' ^^^ c' := foldl_xor_changes hlen t t' c'
  have hzero : diff = 0 ↔ c' = checksum t' p' := by rw [hdiff, eq_comm (a := c')]; exact BitVec.xor_eq_zero_iff
  obtain ⟨m, -, hfeed⟩ := decFeed_wholeFrame t' c' hd hwf (hlen.trans_le hp)
  rw [hlen] at hfeed
  refine ⟨fun hne => ?caught, fun heq => ?passes⟩
  case caught =>
    rw [if_neg (mt hzero.mpr hne), if_neg (mt hzero.mpr hne)] at hfeed
    exact ⟨_, _, hfeed⟩
  case passes =>
    rw [if_pos (hzero.mp heq), if_pos (hzero.mp heq)] at hfeed
    exact ⟨_, hfeed⟩

/-! ## Idle again -/

/-- How many bytes a decoder that R97 allows can take before it is idle again (R99, R103). -/
def bytesToIdle (d : Decoder) : Nat :=
  match d.decState with
  | .waitStart => 0
  | .readType => 67
  | .readLen => 66
  | .readPayload => d.len.toNat - d.idx.toNat + 1
  | .readChecksum => 1

/-- Outside WaitStart every byte brings the decoder nearer to it. -/
theorem bytesToIdle_decStep {d : Decoder} {b : Byte} {r : DecResult} (h : decoderOk d) (hd : d.decState ≠ .waitStart)
    (hr : decStep d b = .ok r) : bytesToIdle r.dec < bytesToIdle d := by
  obtain ⟨hlen, hpay, -, -, -⟩ := h
  unfold decStep at hr
  cases hs : d.decState with
  | waitStart => exact absurd hs hd
  | readType =>
    rw [hs] at hr
    cases hr
    simp [bytesToIdle, hs]
  | readLen =>
    simp only [hs] at hr
    split_ifs at hr with hover hzero <;> cases hr
    · simp [bytesToIdle, hs]
    · simp [bytesToIdle, hs]
    · simp only [maxPayload] at hover
      simp only [bytesToIdle, hs]
      change b.toNat - 0 + 1 < 66
      omega
  | readPayload =>
    obtain ⟨-, hidx⟩ := hpay hs
    have hcell : d.idx.toNat < maxPayload := hidx.trans_le hlen
    have hnext := idx_succ_toNat hlen hidx
    simp only [hs, rowPayload_of_lt b hcell, Except.ok.injEq] at hr
    subst hr
    by_cases hlast : d.idx + 1 = d.len
    · simp only [bytesToIdle, hs, if_pos hlast]
      omega
    · simp only [bytesToIdle, hs, if_neg hlast, hnext]
      omega
  | readChecksum =>
    simp only [hs] at hr
    split_ifs at hr
    · unfold rowCkOk at hr
      split at hr <;> cases hr
      simp [bytesToIdle, hs]
    · cases hr
      simp [bytesToIdle, hs]

theorem bytesToIdle_le {d : Decoder} (h : decoderOk d) : bytesToIdle d ≤ 67 := by
  obtain ⟨hlen, -⟩ := h
  unfold bytesToIdle
  cases d.decState <;> simp only <;> omega

/-- A decoder that R97 allows is idle after at most the bytes it can still take. -/
theorem idle_within {d : Decoder} {bs : List Byte} (h : decoderOk d) (hbs : bytesToIdle d ≤ bs.length) :
    ∃ k d' fs es, k ≤ bytesToIdle d ∧ decFeed d (bs.take k) = .ok (d', fs, es) ∧ idle d' := by
  by_cases hd : d.decState = .waitStart
  · obtain ⟨-, -, -, hidle, -⟩ := h
    exact ⟨0, d, [], [], Nat.zero_le _, decFeed_nil d, hd, hidle hd⟩
  induction bs generalizing d with
  | nil =>
    have hpos : 0 < bytesToIdle d := by unfold bytesToIdle; cases hs : d.decState <;> simp [hs] at hd ⊢
    exact absurd hbs hpos.not_ge
  | cons b bs ih =>
    obtain ⟨r, hr, hok⟩ := decStep_of_ok h b
    have hless := bytesToIdle_decStep h hd hr
    by_cases hd' : r.dec.decState = .waitStart
    · obtain ⟨-, -, -, hidle, -⟩ := hok
      exact ⟨1, _, _, _, by omega, decFeed_cons hr (decFeed_nil _), hd', hidle hd'⟩
    · rw [List.length_cons] at hbs
      obtain ⟨k, d', fs, es, hk, hfeed, hidle⟩ := ih hok (by omega) hd'
      exact ⟨k + 1, d', _, _, by omega, decFeed_cons hr hfeed, hidle⟩

/-- Settles O18. -/
theorem idleAgainWithin68Bytes : Obligations.IdleAgainWithin68Bytes := by
  intro d bs h hbs
  have hle := bytesToIdle_le h
  obtain ⟨k, d', fs, es, hk, hfeed, hidle⟩ := idle_within h (hle.trans (by omega : 67 ≤ bs.length))
  exact ⟨k, d', fs, es, by omega, hfeed, hidle⟩

/-! ## What WaitStart hides (R28) -/

/-- Two decoders in the same state that agree in what that state can still show: nothing in WaitStart and ReadType, type
and accumulator from ReadLen on, with length, index and the cells already written in ReadPayload, and with length and the
cells of the payload in ReadChecksum. -/
def SameView (d₁ d₂ : Decoder) : Prop :=
  Memory.wf d₁.payload = true ∧ Memory.wf d₂.payload = true ∧ d₁.decState = d₂.decState ∧
  match d₁.decState with
  | .waitStart => True
  | .readType => True
  | .readLen => d₁.msgType = d₂.msgType ∧ d₁.checksumAcc = d₂.checksumAcc
  | .readPayload => d₁.msgType = d₂.msgType ∧ d₁.checksumAcc = d₂.checksumAcc ∧ d₁.len = d₂.len ∧ d₁.idx = d₂.idx ∧
      d₁.len.toNat ≤ 64 ∧ d₁.idx.toNat < d₁.len.toNat ∧ ∀ k < d₁.idx.toNat, d₁.payload.get k = d₂.payload.get k
  | .readChecksum => d₁.msgType = d₂.msgType ∧ d₁.checksumAcc = d₂.checksumAcc ∧ d₁.len = d₂.len ∧
      d₁.len.toNat ≤ 64 ∧ ∀ k < d₁.len.toNat, d₁.payload.get k = d₂.payload.get k

/-- Two buffers that agree below a cell agree below the next one once that cell is written in both. -/
theorem put_agree {m₁ m₂ : Memory} {a : Nat} (b : Byte) (h₁ : Memory.wf m₁ = true) (h₂ : Memory.wf m₂ = true)
    (h : ∀ k < a, m₁.get k = m₂.get k) : ∀ k < a + 1, (m₁.put a b).get k = (m₂.put a b).get k := by
  intro k hk
  rcases Nat.lt_succ_iff_lt_or_eq.mp hk with hlt | rfl
  · rw [Memory.get_put_other hlt.ne, Memory.get_put_other hlt.ne, h k hlt]
  · rw [Memory.get_put_same h₁, Memory.get_put_same h₂]

/-- A write inside the buffer keeps the canonical form. -/
theorem put_wf {m : Memory} {a : Nat} (b : Byte) (h : Memory.wf m = true) (ha : a < maxPayload) :
    Memory.wf (m.put a b) = true := by
  obtain ⟨-, hwf, -, -⟩ := Memory.write_spec h (Memory.write_of_lt (b := b) ha)
  exact hwf

/-- One byte completes on both, with the same output, and they agree again. -/
theorem SameView.decStep {d₁ d₂ : Decoder} (h : SameView d₁ d₂) (b : Byte) :
    ∃ r₁ r₂, Machine.decStep d₁ b = .ok r₁ ∧ Machine.decStep d₂ b = .ok r₂ ∧
      r₁.frame = r₂.frame ∧ r₁.event = r₂.event ∧ SameView r₁.dec r₂.dec := by
  obtain ⟨st, t, n, i, a, m₁⟩ := d₁
  obtain ⟨st₂, t₂, n₂, i₂, a₂, m₂⟩ := d₂
  obtain ⟨h₁, h₂, hst, hview⟩ := h
  obtain rfl : st = st₂ := hst
  cases st with
  | waitStart =>
    by_cases hb : b = startMarker
    · exact ⟨_, _, if_pos hb, if_pos hb, rfl, rfl, h₁, h₂, rfl, trivial⟩
    · exact ⟨_, _, if_neg hb, if_neg hb, rfl, rfl, h₁, h₂, rfl, trivial⟩
  | readType => exact ⟨_, _, rfl, rfl, rfl, rfl, h₁, h₂, rfl, rfl, rfl⟩
  | readLen =>
    obtain ⟨rfl, rfl⟩ : t = t₂ ∧ a = a₂ := hview
    by_cases hover : maxPayload < b.toNat
    · exact ⟨_, _, if_pos hover, if_pos hover, rfl, rfl, h₁, h₂, rfl, trivial⟩
    by_cases hzero : b = 0
    · exact ⟨_, _, (if_neg hover).trans (if_pos hzero), (if_neg hover).trans (if_pos hzero), rfl, rfl,
        h₁, h₂, rfl, rfl, rfl, rfl, Nat.zero_le _, nofun⟩
    · have hpos : 0 < b.toNat := by bv_omega
      exact ⟨_, _, (if_neg hover).trans (if_neg hzero), (if_neg hover).trans (if_neg hzero), rfl, rfl,
        h₁, h₂, rfl, rfl, rfl, rfl, rfl, Nat.not_lt.mp hover, hpos, nofun⟩
  | readPayload =>
    obtain ⟨ht, ha, hn, hi, hlen, hidx, hcells⟩ := hview
    dsimp only at ht ha hn hi hlen hidx hcells
    subst ht ha hn hi
    have hcell : i.toNat < maxPayload := hidx.trans_le hlen
    have hnext : (i + 1).toNat = i.toNat + 1 := idx_succ_toNat (d := .mk .readPayload t n i a m₁) hlen hidx
    have hagree : ∀ k < (i + 1).toNat, (m₁.put i.toNat b).get k = (m₂.put i.toNat b).get k := by
      rw [hnext]; exact put_agree b h₁ h₂ hcells
    refine ⟨_, _, rowPayload_of_lt b hcell, rowPayload_of_lt b hcell, rfl, rfl, put_wf b h₁ hcell, put_wf b h₂ hcell,
      rfl, ?_⟩
    by_cases hlast : i + 1 = n
    · simp only [if_pos hlast, true_and]
      exact ⟨hlen, by rw [← hlast]; exact hagree⟩
    · have hmore : (i + 1).toNat ≠ n.toNat := fun h => hlast (BitVec.eq_of_toNat_eq h)
      simp only [if_neg hlast, true_and]
      exact ⟨hlen, by omega, hagree⟩
  | readChecksum =>
    obtain ⟨ht, ha, hn, hlen, hcells⟩ := hview
    dsimp only at ht ha hn hlen hcells
    subst ht ha hn
    by_cases hb : b = a
    · have hread : m₂.readFirst n.toNat = some ((List.range n.toNat).map m₁.get) := by
        rw [Memory.readFirst_of_le hlen]
        exact congrArg some (List.map_congr_left fun k hk => (hcells k (List.mem_range.mp hk)).symm)
      exact ⟨_, _, (if_pos hb).trans (rowCkOk_of_readFirst (Memory.readFirst_of_le hlen)),
        (if_pos hb).trans (rowCkOk_of_readFirst hread), rfl, rfl, h₁, h₂, rfl, trivial⟩
    · exact ⟨_, _, if_neg hb, if_neg hb, rfl, rfl, h₁, h₂, rfl, trivial⟩

/-- So every string of bytes completes on both, with the same outputs. -/
theorem SameView.decFeed {d₁ d₂ : Decoder} (h : SameView d₁ d₂) (bs : List Byte) :
    ∃ d₁' d₂' fs es, Machine.decFeed d₁ bs = .ok (d₁', fs, es) ∧ Machine.decFeed d₂ bs = .ok (d₂', fs, es) := by
  induction bs generalizing d₁ d₂ with
  | nil => exact ⟨d₁, d₂, [], [], rfl, rfl⟩
  | cons b bs ih =>
    obtain ⟨r₁, r₂, hr₁, hr₂, hframe, hevent, hview⟩ := h.decStep b
    obtain ⟨d₁', d₂', fs, es, hf₁, hf₂⟩ := ih hview
    refine ⟨d₁', d₂', _, _, decFeed_cons hr₁ hf₁, ?_⟩
    rw [hframe, hevent]
    exact decFeed_cons hr₂ hf₂

/-- Settles O22. -/
theorem idleRegistersUnobservable : Obligations.IdleRegistersUnobservable := by
  intro d₁ d₂ bs hd₁ hd₂ hwf₁ hwf₂
  have hview : SameView d₁ d₂ := ⟨hwf₁, hwf₂, hd₁.trans hd₂.symm, by rw [hd₁]; trivial⟩
  exact hview.decFeed bs

/-! ## Where the rows stop -/

/-- Settles O13. -/
theorem rowsStopOutsideTheirDomain : Obligations.RowsStopOutsideTheirDomain := by
  refine ⟨fun s i b he hn => exec_of_not_selected he hn, fun s b hs hidx => ?cell, fun s hs hlen => ?cells,
    fun s t p hp => if_neg (Nat.not_le.mpr hp)⟩
  case cell =>
    have hwrite : s.dec.payload.write s.dec.idx.toNat b = none := if_neg (Nat.not_lt.mpr hidx)
    simp [exec, execDecPayload, State.byteOp, selects, hs, rowPayload, hwrite]
  case cells =>
    have hread : s.dec.payload.readFirst s.dec.len.toNat = none := if_neg (Nat.not_le.mpr hlen)
    simp [exec, execDecCkOk, State.byteOp, selects, hs, rowCkOk, hread]

end Machine

end Sys2Proof
end

section
/-! The payload layer (41_encoder_payload R115 to R121): multi-byte fields, what the unpackers answer, and that they read
back what the packers write. -/

namespace Sys2Proof

/-! ## Fields (R11, R40) -/

theorem le32_toNat (b₀ b₁ b₂ b₃ : Byte) :
    (le32 b₀ b₁ b₂ b₃).toNat = b₀.toNat + 256 * b₁.toNat + 65536 * b₂.toNat + 16777216 * b₃.toNat := by
  have h₀ := b₀.isLt
  have h₁ := b₁.isLt
  have h₂ := b₂.isLt
  have h₃ := b₃.isLt
  rw [le32, BitVec.toNat_ofNat]
  omega

/-- A byte of a field is its digit in base 256. -/
theorem extract_byte_toNat (u : Word) (k : Nat) : (u.extractLsb' k 8).toNat = u.toNat / 2 ^ k % 256 := by
  rw [BitVec.extractLsb'_toNat, Nat.shiftRight_eq_div_pow]

/-- The bytes of a field are the bytes it was assembled from. -/
theorem bytesLe32_le32 (b₀ b₁ b₂ b₃ : Byte) : bytesLe32 (le32 b₀ b₁ b₂ b₃) = [b₀, b₁, b₂, b₃] := by
  have h₀ := b₀.isLt
  have h₁ := b₁.isLt
  have h₂ := b₂.isLt
  have h₃ := b₃.isLt
  simp only [bytesLe32, List.cons.injEq, and_true]
  refine ⟨?_, ?_, ?_, ?_⟩ <;> apply BitVec.eq_of_toNat_eq <;> rw [extract_byte_toNat, le32_toNat] <;> omega

/-- Settles O30. -/
theorem littleEndianFields : Obligations.LittleEndianFields := fun b₀ b₁ b₂ b₃ u =>
  ⟨le32_toNat b₀ b₁ b₂ b₃, bytesLe32_le32 b₀ b₁ b₂ b₃, le32_extract u⟩

namespace Machine

/-! ## Packing -/

theorem exec_tlmPack (s : State) (r : TelemetryRecord) :
    exec (.tlmPack r) s = .next { s with out := { result := some (.bytes (telemetryBytes r)) } } := rfl

theorem exec_cmdPack (s : State) (c : Command) :
    exec (.cmdPack c) s = .next { s with out := { result := some (.bytes (commandBytes c)) } } := rfl

/-- Settles O27: the layouts are `telemetryBytes` and `commandBytes`, written out. -/
theorem packLayouts : Obligations.PackLayouts := by
  intro s r v
  refine ⟨⟨r.state.code, fun h => ?normal, fun h => ?warning, fun h => ?scram, exec_tlmPack s r⟩,
    exec_cmdPack s .scram, exec_cmdPack s .resetNormal, exec_cmdPack s (.setPower v)⟩
  case normal => rw [h]; rfl
  case warning => rw [h]; rfl
  case scram => rw [h]; rfl

/-! ## TLM.UNPACK -/

theorem exec_tlmUnpack_of_ok (s : State) {p : List Byte} {r : TelemetryRecord} (h : unpackTelemetry p = .ok r) :
    exec (.tlmUnpack p) s = .next { s with out := { result := some (.record r) } } := by
  simp only [exec, execTlmUnpack, h]
  rfl

theorem exec_tlmUnpack_of_error (s : State) {p : List Byte} {e : Event} (h : unpackTelemetry p = .error e) :
    exec (.tlmUnpack p) s = .next { s with out := { result := some .dropped, events := [e] } } := by
  simp only [exec, execTlmUnpack, h]
  rfl

/-- A payload that is no record is dropped with its length. -/
theorem unpackTelemetry_error {p : List Byte} {e : Event} (h : unpackTelemetry p = .error e) :
    e = .tlmMalformed p.length := by
  unfold unpackTelemetry at h
  split at h
  · exact (Except.error.inj h).symm
  · split at h
    · cases h
    · exact (Except.error.inj h).symm

/-- A short payload, or one with a reserved state or power byte, is no record (R79). -/
theorem unpackTelemetry_malformed {p : List Byte}
    (h : p.length < 14 ∨ 3 ≤ (p.getD 12 0).toNat ∨ 101 ≤ (p.getD 13 0).toNat) :
    unpackTelemetry p = .error (.tlmMalformed p.length) := by
  unfold unpackTelemetry
  by_cases hshort : p.length < tlmPayloadLen
  · rw [if_pos hshort]
  · have hnone : telemetryFields p = none := by
      rw [← Option.isSome_eq_false_iff.trans Option.isNone_iff_eq_none, telemetryFields_isSome, Bool.and_eq_false_iff,
        decide_eq_false_iff_not, decide_eq_false_iff_not, BitVec.not_le, BitVec.not_le]
      exact h.resolve_left hshort
    rw [if_neg hshort, hnone]

/-- Every other payload is the record of its first 14 bytes (R116). -/
theorem unpackTelemetry_record {p : List Byte} (hlen : 14 ≤ p.length) (hstate : (p.getD 12 0).toNat ≤ 2)
    (hpower : (p.getD 13 0).toNat ≤ 100) :
    ∃ st, ReactorState.ofCode (p.getD 12 0) = some st ∧
      unpackTelemetry p = .ok { sampleId := le32At p 0, temperature := le32At p 4, accelMag := le32At p 8,
                                state := st, power := p.getD 13 0 } := by
  have hcode : (ReactorState.ofCode (p.getD 12 0)).isSome = true := by
    rw [ReactorState.ofCode_isSome]
    exact decide_eq_true hstate
  obtain ⟨st, hst⟩ := Option.isSome_iff_exists.mp hcode
  have hlong : ¬ p.length < tlmPayloadLen := Nat.not_lt.mpr hlen
  have hle : p.getD 13 0 ≤ powerMax := hpower
  refine ⟨st, hst, ?_⟩
  simp only [unpackTelemetry, if_neg hlong, telemetryFields, hst, if_pos hle]

/-- Settles O28. -/
theorem telemetryUnpack : Obligations.TelemetryUnpack := by
  intro s p
  refine ⟨fun h => exec_tlmUnpack_of_error s (unpackTelemetry_malformed h), fun hlen hstate hpower => ?_⟩
  obtain ⟨st, hst, hrec⟩ := unpackTelemetry_record hlen hstate hpower
  refine ⟨_, exec_tlmUnpack_of_ok s hrec, rfl, rfl, rfl, fun h => ?_, fun h => ?_, fun h => ?_, rfl⟩ <;>
    rw [h] at hst <;> exact (Option.some.inj hst).symm

/-! ## CMD.UNPACK -/

theorem unpackCommand_setPower (tail : List Byte) :
    unpackCommand (cmdIdSetPower :: tail) =
      if (cmdIdSetPower :: tail).length < cmdLenSetPower then .error (.cmdUndersize (tail.length + 1))
      else .ok (.setPower (le32At (cmdIdSetPower :: tail) 1)) := rfl

/-- A SetPower without its four value bytes is dropped with its length (R77). -/
theorem unpackCommand_shortSetPower {tail : List Byte} (h : tail.length < 4) :
    unpackCommand (cmdIdSetPower :: tail) = .error (.cmdUndersize (tail.length + 1)) := by
  have hshort : (cmdIdSetPower :: tail).length < cmdLenSetPower := Nat.succ_lt_succ h
  rw [unpackCommand_setPower, if_pos hshort]

/-- An id that is none of the three is dropped with the id (R76). -/
theorem unpackCommand_unknown {id : Byte} (h₁ : id ≠ cmdIdScram) (h₂ : id ≠ cmdIdResetNormal)
    (h₃ : id ≠ cmdIdSetPower) (tail : List Byte) : unpackCommand (id :: tail) = .error (.cmdUnknown id) := by
  simp only [unpackCommand, if_neg h₁, if_neg h₂, if_neg h₃]

/-- Settles O29. -/
theorem commandUnpack : Obligations.CommandUnpack := by
  intro s id v₀ v₁ v₂ v₃ tail
  have hset : unpackCommand (cmdIdSetPower :: v₀ :: v₁ :: v₂ :: v₃ :: tail) = .ok (.setPower (le32 v₀ v₁ v₂ v₃)) := by
    have hlong : ¬ (cmdIdSetPower :: v₀ :: v₁ :: v₂ :: v₃ :: tail).length < cmdLenSetPower := by
      simp [cmdLenSetPower]
    rw [unpackCommand_setPower, if_neg hlong]
    rfl
  exact ⟨exec_cmdUnpack_of_error s rfl, exec_cmdUnpack_of_ok s rfl, exec_cmdUnpack_of_ok s rfl,
    exec_cmdUnpack_of_ok s hset, fun h => exec_cmdUnpack_of_error s (unpackCommand_shortSetPower h),
    fun h₁ h₂ h₃ => exec_cmdUnpack_of_error s (unpackCommand_unknown h₁ h₂ h₃ tail)⟩

/-- Settles O31. -/
theorem payloadLayerRoundTrips : Obligations.PayloadLayerRoundTrips := by
  intro s c r
  exact ⟨⟨_, exec_cmdPack s c, exec_cmdUnpack_of_ok s (unpackCommand_commandBytes c)⟩, fun hpower =>
    ⟨_, telemetryBytes_length r, exec_tlmPack s r, exec_tlmUnpack_of_ok s (unpackTelemetry_telemetryBytes hpower)⟩⟩

end Machine

end Sys2Proof
end

section
/-! The comms iteration and the frame rows (43_sequencing R166 to R172). A frame at an idle decoder is emitted and
dispatched (`receive_frame`); bytes in any other place are handled one at a time, and what is already in the outputs and
the outbound queues does not matter to them (`rxBytes_inContext`). -/

namespace Sys2Proof.Machine

/-! ## The outbound drain -/

theorem transmit_of_reactor {s : State} (h : s.side = .reactor) :
    s.transmit = { s with
      tlmCh := []
      out := { s.out with tx := s.out.tx ++ s.tlmCh.flatMap fun r => frameBytes typeTelemetry (telemetryBytes r) } } := by
  simp only [State.transmit, h]

theorem transmit_of_bridge {s : State} (h : s.side = .bridge) :
    s.transmit = { s with
      upstream := []
      out := { s.out with tx := s.out.tx ++ s.upstream.flatMap fun c => frameBytes typeCommand (commandBytes c) } } := by
  simp only [State.transmit, h]

/-- The drain writes the two queues and the bytes sent, and nothing else. -/
theorem transmit_withOutbound (s : State) :
    s.transmit = s.withOutbound s.transmit.tlmCh s.transmit.upstream s.transmit.out.tx := by
  cases hs : s.side with
  | reactor => rw [transmit_of_reactor hs]; rfl
  | bridge => rw [transmit_of_bridge hs]; rfl

theorem transmit_events (s : State) : s.transmit.out.events = s.out.events := by
  rw [transmit_withOutbound]
  rfl

theorem exec_commsIter_eq_next {s t : State} {bytes : List Byte} :
    exec (.commsIter bytes) s = .next t ↔ s.quiet.transmit.rxBytes bytes = .ok t := receive_eq_next

/-- Settles O46. -/
theorem outboundFramesOldestFirst : Obligations.OutboundFramesOldestFirst := by
  intro s
  refine ⟨fun hs => exec_commsIter_eq_next.mpr ?reactor, fun hs => exec_commsIter_eq_next.mpr ?bridge⟩
  case reactor => rw [transmit_of_reactor (s := s.quiet) hs]; rfl
  case bridge => rw [transmit_of_bridge (s := s.quiet) hs]; rfl

/-! ## Inbound bytes in a context -/

/-- The state with other outbound queues, and with the given outputs before its frames and events: what inbound bytes do
not read. -/
def State.inContext (s : State) (tl : List TelemetryRecord) (up : List Command) (o : Outputs) : State :=
  { s with
    tlmCh := tl
    upstream := up
    out := { o with frames := o.frames ++ s.out.frames, events := o.events ++ s.out.events } }

/-- Every state is its own quiet state in the context of its queues and outputs. -/
theorem quiet_inContext (s : State) : s.quiet.inContext s.tlmCh s.upstream s.out = s := by
  simp [State.inContext, State.quiet]

section Context

variable (s : State) (tl : List TelemetryRecord) (up : List Command) (o : Outputs)

theorem raise_inContext (e : Event) : (s.inContext tl up o).raise e = (s.raise e).inContext tl up o := by
  simp [State.inContext, State.raise]

theorem sendCommand_inContext (c : Command) :
    (s.inContext tl up o).sendCommand c = (s.sendCommand c).inContext tl up o := by
  rcases Nat.lt_or_ge s.cmdCh.length s.config.cmdChCap with h | h
  · rw [State.sendCommand, State.sendCommand, if_pos h]
    exact if_pos h
  · rw [State.sendCommand, State.sendCommand, if_neg h.not_gt, ← raise_inContext]
    exact if_neg h.not_gt

theorem dispatch_inContext (f : Frame) : (s.inContext tl up o).dispatch f = (s.dispatch f).inContext tl up o := by
  have hside : (s.inContext tl up o).side = s.side := rfl
  unfold State.dispatch
  rw [hside]
  cases s.side with
  | reactor =>
    simp only [State.dispatchReactor]
    split
    · split
      · exact sendCommand_inContext s tl up o _
      · exact raise_inContext s tl up o _
    · exact raise_inContext s tl up o _
  | bridge =>
    simp only [State.dispatchBridge]
    split
    · split
      · rfl
      · exact raise_inContext s tl up o _
    · exact raise_inContext s tl up o _

theorem rxByte_inContext (b : Byte) :
    (s.inContext tl up o).rxByte b = (s.rxByte b).map fun t => t.inContext tl up o := by
  have hdec : (s.inContext tl up o).dec = s.dec := rfl
  unfold State.rxByte
  rw [hdec]
  cases decStep s.dec b with
  | error f => rfl
  | ok r =>
    have hafter : (s.inContext tl up o).afterByte r = (s.afterByte r).inContext tl up o := by
      simp [State.inContext, State.afterByte]
    simp only [hafter, Except.map]
    cases r.frame with
    | none => rfl
    | some f => exact congrArg Except.ok (dispatch_inContext (s.afterByte r) tl up o f)

/-- Inbound bytes add to the outputs and leave the outbound queues. -/
theorem rxBytes_inContext (bs : List Byte) :
    (s.inContext tl up o).rxBytes bs = (s.rxBytes bs).map fun t => t.inContext tl up o := by
  induction bs generalizing s with
  | nil => rfl
  | cons b bs ih =>
    simp only [State.rxBytes, rxByte_inContext]
    cases s.rxByte b with
    | error f => rfl
    | ok u => exact ih u

end Context

/-- The drain starts from an empty output, so it is a context. -/
theorem quiet_transmit_inContext (s : State) :
    s.quiet.transmit = s.quiet.inContext s.quiet.transmit.tlmCh s.quiet.transmit.upstream
      { tx := s.quiet.transmit.out.tx } := transmit_withOutbound s.quiet

/-- Settles O24: the second iteration's bytes do the same after its drain as in the one iteration. -/
theorem cutOfTheStreamDoesNotMatter : Obligations.CutOfTheStreamDoesNotMatter := by
  intro s t a b h
  rw [exec_commsIter_eq_next, rxBytes_append] at h
  cases ha : s.quiet.transmit.rxBytes a with
  | error f => rw [ha] at h; cases h
  | ok t₁ =>
    simp only [ha] at h
    rw [← quiet_inContext t₁, rxBytes_inContext] at h
    cases hb : t₁.quiet.rxBytes b with
    | error f => rw [hb] at h; cases h
    | ok u =>
      rw [hb] at h
      cases h
      have hsecond := rxBytes_inContext t₁.quiet t₁.quiet.transmit.tlmCh t₁.quiet.transmit.upstream
        { tx := t₁.quiet.transmit.out.tx } b
      rw [hb, ← quiet_transmit_inContext] at hsecond
      exact ⟨t₁, _, exec_commsIter_eq_next.mpr ha, exec_commsIter_eq_next.mpr hsecond, rfl, rfl, rfl, rfl, rfl⟩

/-! ## Every byte string -/

theorem dispatchOption_of_none (s : State) {o : Option Frame} (h : o = none) : s.dispatchOption o = s := by
  rw [h, State.dispatchOption]

theorem dispatchOption_of_some (s : State) {o : Option Frame} {f : Frame} (h : o = some f) :
    s.dispatchOption o = s.dispatch f := by
  rw [h, State.dispatchOption]

/-- Settles O45: the bytes are fed as `rxBytes_of_decFeed` says, and one byte more is one `rxByte`. -/
theorem commsIterationHandlesEveryByte : Obligations.CommsIterationHandlesEveryByte := by
  intro s bytes hd
  have hd' : decoderOk s.quiet.transmit.dec := by simpa using hd
  have hsent := transmit_withOutbound s.quiet
  obtain ⟨d, fs, es, hfeed, hok⟩ := decFeed_of_ok hd' bytes
  obtain ⟨t, ht, rfl, hframes, hevents⟩ := rxBytes_of_decFeed hfeed
  have hsame := (rxBytes_ok ht).same
  rw [State.transmit_dec] at hfeed
  rw [hsent] at hframes hevents hsame
  refine ⟨t, es, exec_commsIter_eq_next.mpr ht, hok, ?feeding, hevents, ?same, fun b => ?oneMore⟩
  case feeding => rw [show t.out.frames = fs from hframes]; exact hfeed
  case same =>
    rw [hsame]
    rfl
  case oneMore =>
    obtain ⟨r, hr, -⟩ := decStep_of_ok hok b
    have hlast : s.quiet.transmit.rxBytes (bytes ++ [b]) = .ok ((t.afterByte r).dispatchOption r.frame) := by
      rw [rxBytes_append, ht]
      simp only [State.rxBytes, rxByte_of_step hr]
    refine ⟨r, _, hr, exec_commsIter_eq_next.mpr hlast, fun hnone => ?_, fun f hf => ?_⟩
    · exact dispatchOption_of_none _ hnone
    · rw [dispatchOption_of_some _ hf]
      exact dispatch_handled (t.afterByte r) f

/-- Settles O51: a frame row and the iteration over its bytes differ in the drain, which inbound bytes do not read. -/
theorem anyFrameCompletes : Obligations.AnyFrameCompletes := by
  intro s i bytes he
  refine ⟨fun hwf hd => ?completes, fun t p hi hp => ?refused⟩
  case completes =>
    obtain ⟨d, fs, es, hfeed, hok⟩ := decFeed_of_ok hd bytes
    obtain ⟨u, hu, rfl, hframes, hevents⟩ := rxBytes_of_decFeed (s := s.quiet) hfeed
    have hkept : u = u.withOutbound s.tlmCh s.upstream [] := by
      have h := rxBytes_withOutbound hu s.tlmCh s.upstream []
      exact Except.ok.inj (hu.symm.trans h)
    have hiter := rxBytes_withOutbound hu s.quiet.transmit.tlmCh s.quiet.transmit.upstream s.quiet.transmit.out.tx
    rw [← transmit_withOutbound] at hiter
    refine ⟨u, _, es, (exec_of_encode_frame hwf he s).trans (receive_eq_next.mpr hu), hok, ?_, hevents,
      exec_commsIter_eq_next.mpr hiter, hkept, (rxBytes_ok hu).same⟩
    rw [show u.out.frames = fs from hframes]
    exact hfeed
  case refused =>
    subst hi
    exact if_neg (Nat.not_le.mpr hp)

/-! ## A whole frame at an idle decoder -/

/-- The state in which a frame of payload cells `m` has just been emitted by a decoder that is idle again. -/
def State.emitted (s : State) (m : Memory) (f : Frame) : State :=
  { s with dec := Decoder.mk .waitStart 0 0 0 0 m, out := { s.out with frames := s.out.frames ++ [f] } }

theorem idle_mk (m : Memory) : idle (Decoder.mk .waitStart 0 0 0 0 m) := ⟨rfl, rfl, rfl, rfl, rfl⟩

/-- A frame at an idle decoder is emitted and dispatched; its payload stands in the first cells (R94, R166). -/
theorem rxBytes_frameBytes {s : State} (t : Byte) {p : List Byte} (hd : idle s.dec)
    (hwf : Memory.wf s.dec.payload = true) (hp : p.length ≤ maxPayload) :
    ∃ m, Memory.wf m = true ∧ (∀ k, k < p.length → m.read k = p[k]?) ∧
      (∀ a, p.length ≤ a → m.read a = s.dec.payload.read a) ∧
      s.rxBytes (frameBytes t p) = .ok ((s.emitted m ⟨t, p⟩).dispatch ⟨t, p⟩) := by
  obtain ⟨hstate, -⟩ := hd
  obtain ⟨m, hm, hin, hout, hrx⟩ := rxBytes_frame t hstate hwf hp
  refine ⟨m, hm, fun k hk => ?_, fun a ha => Memory.read_congr (hout a ha), hrx⟩
  rw [Memory.read_of_lt (hk.trans_le hp), hin k hk]

section Dispatch

variable {s : State} {f : Frame}

theorem dispatch_unrecognised (h : f.typ ≠ recognised s.side) : s.dispatch f = s.raise (.unknownType f.typ) := by
  obtain ⟨-, -, hdrop⟩ := dispatch_handled s f
  exact hdrop h

theorem dispatch_command {c : Command} (hs : s.side = .reactor) (ht : f.typ = typeCommand)
    (hc : unpackCommand f.payload = .ok c) : s.dispatch f = s.sendCommand c := by
  simp only [State.dispatch, hs, State.dispatchReactor, if_pos ht, hc]

theorem dispatch_noCommand {e : Event} (hs : s.side = .reactor) (ht : f.typ = typeCommand)
    (he : unpackCommand f.payload = .error e) : s.dispatch f = s.raise e := by
  simp only [State.dispatch, hs, State.dispatchReactor, if_pos ht, he]

theorem dispatch_record {r : TelemetryRecord} (hs : s.side = .bridge) (ht : f.typ = typeTelemetry)
    (hr : unpackTelemetry f.payload = .ok r) : s.dispatch f = s.putLatest r := by
  simp only [State.dispatch, hs, State.dispatchBridge, if_pos ht, hr]

theorem dispatch_noRecord {e : Event} (hs : s.side = .bridge) (ht : f.typ = typeTelemetry)
    (he : unpackTelemetry f.payload = .error e) : s.dispatch f = s.raise e := by
  simp only [State.dispatch, hs, State.dispatchBridge, if_pos ht, he]

end Dispatch

theorem sendCommand_of_room {s : State} (h : s.cmdCh.length < s.config.cmdChCap) (c : Command) :
    s.sendCommand c = { s with cmdCh := s.cmdCh ++ [c] } := if_pos h

theorem sendCommand_of_full {s : State} (h : s.config.cmdChCap ≤ s.cmdCh.length) (c : Command) :
    s.sendCommand c = s.raise (.cmdChFull c) := if_neg h.not_gt

/-! ## Command frames -/

/-- A command's frame at an idle reactor side: emitted, and its command sent to the channel. -/
theorem rxBytes_command {s : State} (hs : s.side = .reactor) (hd : idle s.dec) (hwf : Memory.wf s.dec.payload = true)
    (c : Command) : ∃ m, s.rxBytes (frameBytes typeCommand (commandBytes c)) =
      .ok ((s.emitted m ⟨typeCommand, commandBytes c⟩).sendCommand c) := by
  obtain ⟨m, -, -, -, hrx⟩ := rxBytes_frameBytes typeCommand hd hwf (commandBytes_length_le c)
  exact ⟨m, hrx.trans (congrArg _ (dispatch_command hs rfl (unpackCommand_commandBytes c)))⟩

/-- Settles O47, by whether the channel has room. -/
theorem commandDeliveredEndToEnd : Obligations.CommandDeliveredEndToEnd := by
  intro s c hs hd hwf
  obtain ⟨m, hrx⟩ := rxBytes_command (s := s.quiet.transmit) (by simpa using hs) (by simpa using hd) (by simpa using hwf) c
  have hcmds : s.quiet.transmit.cmdCh = s.cmdCh := by simp
  have hevents : s.quiet.transmit.out.events = [] := transmit_events s.quiet
  rw [← exec_commsIter_eq_next] at hrx
  rcases Nat.lt_or_ge s.cmdCh.length s.config.cmdChCap with h | h
  · have hroom := sendCommand_of_room (s := s.quiet.transmit.emitted m ⟨typeCommand, commandBytes c⟩)
      (by simpa [State.emitted] using h) c
    rw [hroom] at hrx
    exact ⟨_, hrx, idle_mk m, by simp [State.emitted, typeCommand],
      fun _ => ⟨congrArg (· ++ [c]) hcmds, hevents⟩, fun h' => absurd h h'.not_gt⟩
  · have hfull := sendCommand_of_full (s := s.quiet.transmit.emitted m ⟨typeCommand, commandBytes c⟩)
      (by simpa [State.emitted] using h) c
    rw [hfull] at hrx
    exact ⟨_, hrx, idle_mk m, by simp [State.emitted, typeCommand],
      fun h' => absurd h' h.not_gt, fun _ => ⟨hcmds, congrArg (· ++ [Event.cmdChFull c]) hevents⟩⟩

/-- Where the decoder was idle before, emitting writes the buffer alone of it. -/
theorem emitted_of_idle {s : State} (h : idle s.dec) (m : Memory) (f : Frame) :
    s.emitted m f =
      { s with dec := { s.dec with payload := m }, out := { s.out with frames := s.out.frames ++ [f] } } := by
  obtain ⟨hstate, htype, hlen, hidx, hacc⟩ := h
  simp only [State.emitted, hstate, htype, hlen, hidx, hacc]

/-- Settles O49: the three rows receive the frame of their command. -/
theorem namedCommandFrames : Obligations.NamedCommandFrames := by
  intro s v i c hi hd hwf
  have hexec : exec i s = s.quiet.receive (frameBytes typeCommand (commandBytes c)) := by
    rcases hi with ⟨rfl, rfl⟩ | ⟨rfl, rfl⟩ | ⟨rfl, rfl⟩ <;> rfl
  obtain ⟨m, -, hin, hout, hrx⟩ := rxBytes_frameBytes (s := s.quiet) typeCommand hd hwf (commandBytes_length_le c)
  have hnext := hexec.trans (receive_eq_next.mpr hrx)
  have hc := unpackCommand_commandBytes c
  rw [emitted_of_idle (s := s.quiet) hd] at hnext
  rw [hnext]
  refine ⟨m, fun hs hroom => ?room, fun hs hfull => ?full, fun hs => ?bridge, hin, hout⟩
  case room => exact congrArg _ ((dispatch_command (by exact hs) rfl hc).trans (sendCommand_of_room (by exact hroom) c))
  case full => exact congrArg _ ((dispatch_command (by exact hs) rfl hc).trans (sendCommand_of_full (by exact hfull) c))
  case bridge =>
    have hother : typeCommand ≠ recognised s.side := by rw [hs]; nofun
    exact congrArg _ (dispatch_unrecognised hother)

/-- A batch that ends with Scram leaves (Scram, 0), and the evaluation keeps it. -/
theorem reactorStep_scram_last (c : Config) (cmds : List Command) (temp accel : Word) (ok : Bool) (r : Reactor) :
    r.step c (cmds ++ [.scram]) temp accel ok = { state := .scram, power := 0 } := by
  cases ok with
  | false => exact Reactor.step_sensorFailed c _ temp accel r
  | true =>
    have hs : ((r.applyAll cmds).applyAll [.scram]).state = .scram := rfl
    rw [Reactor.step_sensorOk, applyAll_append]
    exact eval_scram hs

/-- Settles O50. -/
theorem scramFrameScramsNextControlStep : Obligations.ScramFrameScramsNextControlStep := by
  intro s temp accel ok hs hd hwf hroom
  obtain ⟨m, hpush, -⟩ := namedCommandFrames s 0 .scram .scram (Or.inl ⟨rfl, rfl⟩) hd hwf
  obtain ⟨t, ht, hreactor, hcmds⟩ := exec_ctrlStep_reactor temp accel ok { s with
    dec := { s.dec with payload := m }
    cmdCh := s.cmdCh ++ [.scram]
    out := { frames := [{ typ := 0x10, payload := commandBytes .scram }] } }
  refine ⟨t, ?_, hreactor.trans (reactorStep_scram_last _ _ _ _ _ _), hcmds⟩
  rw [execAll_cons_of_next (hpush hs hroom), execAll_cons_of_next ht, execAll]

/-! ## Frames that are dropped, and telemetry -/

/-- A frame at an idle decoder whose dispatch only raises an event. -/
theorem receive_dropped {s : State} {f : Frame} {e : Event} (hd : idle s.dec) (hwf : Memory.wf s.dec.payload = true)
    (hp : f.payload.length ≤ maxPayload) (hdrop : ∀ a : State, a.side = s.side → a.dispatch f = a.raise e) :
    ∃ u, s.quiet.receive (frameBytes f.typ f.payload) = .next u ∧ u = { s with dec := u.dec, out := u.out } ∧
      idle u.dec ∧ u.out = { frames := [f], events := [e] } := by
  obtain ⟨m, -, -, -, hrx⟩ := rxBytes_frameBytes (s := s.quiet) f.typ hd hwf hp
  have hraise := hdrop (s.quiet.emitted m f) rfl
  exact ⟨_, receive_eq_next.mpr (hrx.trans (congrArg _ hraise)), rfl, idle_mk m, rfl⟩

theorem exec_frame_of_le {p : List Byte} (hp : p.length ≤ maxPayload) (t : Byte) (s : State) :
    exec (.frame t p) s = s.quiet.receive (frameBytes t p) := if_pos hp

/-- Settles O52: in each case dispatch only raises the event. -/
theorem framesDroppedAboveTheDecoder : Obligations.FramesDroppedAboveTheDecoder := by
  intro s t p hd hwf hp
  refine ⟨fun ht => ?unrecognised, fun e hs he => ?noCommand, fun e hs he => ⟨unpackTelemetry_error he, ?noRecord⟩⟩
  case unrecognised =>
    rw [exec_frame_of_le hp]
    exact receive_dropped (f := ⟨t, p⟩) hd hwf hp fun a ha => dispatch_unrecognised (by rw [ha]; exact ht)
  case noCommand =>
    rw [exec_frame_of_le hp]
    exact receive_dropped (f := ⟨typeCommand, p⟩) hd hwf hp fun a ha => dispatch_noCommand (ha.trans hs) rfl he
  case noRecord =>
    rw [exec_frame_of_le hp]
    exact receive_dropped (f := ⟨typeTelemetry, p⟩) hd hwf hp fun a ha => dispatch_noRecord (ha.trans hs) rfl he

/-- A record's frame at an idle bridge: emitted, and the record put in the cell. -/
theorem rxBytes_record {s : State} (hs : s.side = .bridge) (hd : idle s.dec) (hwf : Memory.wf s.dec.payload = true)
    {r : TelemetryRecord} (hr : r.power ≤ powerMax) :
    ∃ m, Memory.wf m = true ∧ s.rxBytes (frameBytes typeTelemetry (telemetryBytes r)) =
      .ok ((s.emitted m ⟨typeTelemetry, telemetryBytes r⟩).putLatest r) := by
  have hp : (telemetryBytes r).length ≤ maxPayload := (telemetryBytes_length r).trans_le (by decide)
  obtain ⟨m, hm, -, -, hrx⟩ := rxBytes_frameBytes typeTelemetry hd hwf hp
  exact ⟨m, hm, hrx.trans (congrArg _ (dispatch_record hs rfl (unpackTelemetry_telemetryBytes hr)))⟩

/-- Settles O53, by the side of the link. -/
theorem telemetryFrame : Obligations.TelemetryFrame := by
  intro s r hd hwf hr
  have hp : (telemetryBytes r).length ≤ maxPayload := (telemetryBytes_length r).trans_le (by decide)
  cases hs : s.side with
  | reactor =>
    obtain ⟨u, hu, hsame, hidle, hout⟩ := receive_dropped (f := ⟨typeTelemetry, telemetryBytes r⟩)
      (e := .unknownType typeTelemetry) hd hwf hp fun a ha => dispatch_unrecognised (by rw [ha, hs]; nofun)
    exact ⟨u, hu, hidle, by rw [hout]; rfl, nofun, fun _ => ⟨hsame.trans (by rw [hs]), by rw [hout]; rfl⟩⟩
  | bridge =>
    obtain ⟨m, -, hrx⟩ := rxBytes_record (s := s.quiet) hs hd hwf hr
    exact ⟨_, receive_eq_next.mpr hrx, idle_mk m, rfl, fun _ => ⟨by rw [← hs]; rfl, rfl⟩, nofun⟩

/-- The frames of records with legal powers, at an idle bridge: no event, and the decoder idle again. -/
theorem rxBytes_records {s : State} (hs : s.side = .bridge) (hd : idle s.dec) (hwf : Memory.wf s.dec.payload = true)
    {rs : List TelemetryRecord} (hrs : ∀ r ∈ rs, r.power ≤ powerMax) :
    ∃ t, s.rxBytes (rs.flatMap fun r => frameBytes typeTelemetry (telemetryBytes r)) = .ok t ∧ t.side = .bridge ∧
      idle t.dec ∧ Memory.wf t.dec.payload = true ∧ t.out.events = s.out.events := by
  induction rs generalizing s with
  | nil => exact ⟨s, rfl, hs, hd, hwf, rfl⟩
  | cons r rs ih =>
    obtain ⟨m, hm, hrx⟩ := rxBytes_record hs hd hwf (hrs r List.mem_cons_self)
    obtain ⟨t, ht, hside, hidle, hwf', hevents⟩ := ih
      (s := (s.emitted m ⟨typeTelemetry, telemetryBytes r⟩).putLatest r) hs (idle_mk m) hm
      fun x hx => hrs x (List.mem_cons_of_mem _ hx)
    refine ⟨t, ?_, hside, hidle, hwf', hevents⟩
    rw [List.flatMap_cons, rxBytes_append, hrx]
    exact ht

/-- Settles O48: the older records are received, and then the newest, which the cell keeps. -/
theorem telemetryDeliveredEndToEnd : Obligations.TelemetryDeliveredEndToEnd := by
  intro s u older r hs hch hlegal hu hd hwf
  rw [hch] at hlegal
  have hsent : exec (.commsIter []) s = .next s.quiet.transmit := exec_commsIter_eq_next.mpr rfl
  have htx : s.quiet.transmit.out.tx =
      (older ++ [r]).flatMap fun x => frameBytes typeTelemetry (telemetryBytes x) := by
    rw [transmit_of_reactor (s := s.quiet) hs, ← hch]
    rfl
  obtain ⟨w, hw, hside, hidle, hwf', hevents⟩ := rxBytes_records (s := u.quiet.transmit) (by simpa using hu)
    (by simpa using hd) (by simpa using hwf) (rs := older) fun x hx => hlegal x (List.mem_append_left _ hx)
  obtain ⟨m, -, hrx⟩ := rxBytes_record hside hidle hwf' (hlegal r (List.mem_append_right _ List.mem_cons_self))
  have hreceived : u.quiet.transmit.rxBytes s.quiet.transmit.out.tx =
      .ok ((w.emitted m ⟨typeTelemetry, telemetryBytes r⟩).putLatest r) := by
    rw [htx, List.flatMap_append, rxBytes_append, hw, List.flatMap_singleton]
    exact hrx
  exact ⟨_, _, hsent, exec_commsIter_eq_next.mpr hreceived, rfl, hevents.trans (transmit_events u.quiet), idle_mk m⟩

end Sys2Proof.Machine
end

section
/-! binary32 (42_reactor R135, R144; log 19). The comparisons are those of `f32Key`, and the values differ from each other
as the units of `f32Units` do, so `fl32_nearest` carries over to TEMP_CLEAR. -/

namespace Sys2Proof.Machine

/-! ## The comparisons, by key -/

theorem f32IsNaN_of_finite {a : Word} (h : f32IsFinite a = true) : f32IsNaN a = false :=
  decide_eq_false (of_decide_eq_true h).not_gt

section Ordered

variable {a b : Word}

theorem f32Lt_of_ordered (ha : f32IsNaN a = false) (hb : f32IsNaN b = false) :
    f32Lt a b = decide (f32Key a < f32Key b) := by
  rw [f32Lt, ha, hb]
  rfl

theorem f32Ge_of_ordered (ha : f32IsNaN a = false) (hb : f32IsNaN b = false) :
    f32Ge a b = decide (f32Key b ≤ f32Key a) := by
  rw [f32Ge, ha, hb]
  rfl

/-- Two patterns that are no NaN, the first below the second: each test, in both directions. -/
theorem comparisons_of_key_lt (ha : f32IsNaN a = false) (hb : f32IsNaN b = false) (h : f32Key a < f32Key b) :
    (f32Lt a b = true ∧ f32Gt a b = false ∧ f32Ge a b = false) ∧
      (f32Lt b a = false ∧ f32Gt b a = true ∧ f32Ge b a = true) := by
  rw [f32Gt, f32Gt, f32Lt_of_ordered ha hb, f32Lt_of_ordered hb ha, f32Ge_of_ordered ha hb, f32Ge_of_ordered hb ha]
  exact ⟨⟨decide_eq_true h, decide_eq_false h.not_gt, decide_eq_false h.not_ge⟩,
    decide_eq_false h.not_gt, decide_eq_true h, decide_eq_true h.le⟩

/-- With a NaN on either side every test is false. -/
theorem comparisons_of_nan (h : f32IsNaN a = true ∨ f32IsNaN b = true) :
    f32Lt a b = false ∧ f32Gt a b = false ∧ f32Ge a b = false := by
  rcases h with h | h <;> simp [f32Lt, f32Gt, f32Ge, h]

end Ordered

/-- The key of a finite pattern lies between those of the infinities. -/
theorem f32Key_between {a : Word} (h : f32IsFinite a = true) :
    f32Key 0xFF800000 < f32Key a ∧ f32Key a < f32Key 0x7F800000 := by
  have hmag : f32Mag a < 0x7F800000 := of_decide_eq_true h
  have hneg : f32Key 0xFF800000 = -0x7F800000 := by decide
  have hpos : f32Key 0x7F800000 = 0x7F800000 := by decide
  rw [hneg, hpos, f32Key]
  split <;> omega

/-! ## The values -/

/-- Values are ordered as their units are. -/
theorem f32Value_lt_iff (a b : Word) : f32Value a < f32Value b ↔ f32Key a < f32Key b := by
  rw [f32Value_eq_units, f32Value_eq_units, f32Key_lt_iff, div_lt_div_iff_of_pos_right (by positivity), Int.cast_lt]

/-- HYST_MARGIN is 2.0. -/
theorem f32Units_hystMargin : f32Units hystMargin = 2 ^ 150 := by decide

/-- The distance of a value from TEMP_WARNING - 2, in units of 2^-149. -/
theorem distance_eq_units (c : Config) (u : Word) :
    |f32Value u - (f32Value c.tempWarning - 2)| =
      ((|f32Units u - (f32Units c.tempWarning - f32Units hystMargin)| : ℤ) : ℚ) / 2 ^ 149 := by
  have hscaled : f32Value u - (f32Value c.tempWarning - 2) =
      ((f32Units u - (f32Units c.tempWarning - f32Units hystMargin) : ℤ) : ℚ) / 2 ^ 149 := by
    rw [f32Value_eq_units, f32Value_eq_units, f32Units_hystMargin]
    push_cast
    ring
  rw [hscaled, abs_div, Int.cast_abs, abs_of_pos (show (0 : ℚ) < 2 ^ 149 by positivity)]

/-! ## The obligation -/

/-- Settles O34: the tests by their keys, TEMP_CLEAR by `fl32_nearest`. -/
theorem binaryComparisonsAndTempClear : Obligations.BinaryComparisonsAndTempClear := by
  have hscale : (0 : ℚ) < 2 ^ 149 := by positivity
  refine ⟨fun a b => ⟨fun ha hb => ?finite, fun ha => ?infinite, comparisons_of_nan⟩,
    fun c hc => ⟨?clearFinite, fun u _ => ?nearest⟩⟩
  case finite =>
    have hna := f32IsNaN_of_finite ha
    have hnb := f32IsNaN_of_finite hb
    rw [f32Gt, f32Lt_of_ordered hna hnb, f32Lt_of_ordered hnb hna, f32Ge_of_ordered hna hnb, decide_eq_true_iff,
      decide_eq_true_iff, decide_eq_true_iff, f32Value_lt_iff, f32Value_lt_iff, ← not_lt, ← not_lt, f32Value_lt_iff]
    exact ⟨Iff.rfl, Iff.rfl, Iff.rfl⟩
  case infinite =>
    have hna := f32IsNaN_of_finite ha
    obtain ⟨hlow, hhigh⟩ := f32Key_between ha
    obtain ⟨hbelow, habove⟩ := comparisons_of_key_lt hna (b := 0x7F800000) (by decide) hhigh
    obtain ⟨hbelow', habove'⟩ := comparisons_of_key_lt (a := 0xFF800000) (by decide) hna hlow
    exact ⟨hbelow, habove, habove', hbelow'⟩
  case clearFinite =>
    refine decide_eq_true ?_
    rw [tempClear, f32Mag_fl32 (tempClear_finite hc)]
    exact tempClear_finite hc
  case nearest =>
    obtain ⟨hle, htie⟩ := fl32_nearest (tempClear_finite hc) u
    rw [distance_eq_units, distance_eq_units, div_le_div_iff_of_pos_right hscale, div_left_inj' hscale.ne',
      Int.cast_le, Int.cast_inj]
    refine ⟨hle, fun heq => (htie heq).imp (fun hunits => ?_) id⟩
    rw [f32Value_eq_units, hunits, f32Value_eq_units, tempClear]

end Sys2Proof.Machine
end
